-- ==== Sys2Proof/Word.lean ====
section
/-!
DEFINITION. The data types of the MixCore unit: words, bytes, the two sizes of block and the 128-byte buffer
(`00_scope.md` R10, R11; `20_memory.md` R62).
-/

namespace Sys2Proof

/-- A data word: an unsigned 32-bit integer, with arithmetic modulo 2^32 (R10). -/
abbrev Word := BitVec 32

/-- One byte of the scratch space. -/
abbrev Byte := BitVec 8

/-- `HALF_WORDS = 16` (R11): one half of the working block, a 4x4 matrix in row-major order (R23). -/
abbrev Half := Vector Word 16

/-- `BLOCK_WORDS = 32` (R11): a working block, or one scratch block as words. -/
abbrev Block := Vector Word 32

/-- `BLOCK_BYTES = 128` (R11): the byte view of a block. -/
abbrev Bytes128 := Vector Byte 128

end Sys2Proof
end

