-- ==== Sys2Proof/Config.lean ====
section
/-!
DEFINITION. What an implementation of the unit fixes: `LOG2_NMAX` and `IDX_WORD` (`00_scope.md` R14, R15), and the
constants of the command set. They are configuration, not state (R21, R41); see log 3 for how the model carries them.
-/

namespace Sys2Proof

/-- The named parameters of the unit (R14, R15). -/
structure Config where
  /-- `LOG2_NMAX` (R14): the scratch memory holds `2 ^ log2NMax` blocks. -/
  log2NMax : Nat
  /-- `IDX_WORD` (R15): the word of `X` the mix phase takes its index from. -/
  idxWord : Fin 32
  deriving DecidableEq, Repr

/-- The range R14 gives `LOG2_NMAX`. -/
def Config.wf (c : Config) : Bool := decide (1 ≤ c.log2NMax) && decide (c.log2NMax ≤ 31)

/-- `N_MAX` (R14), in blocks of 128 bytes. -/
def Config.nMax (c : Config) : Nat := 2 ^ c.log2NMax

/-- `LOG2_NMAX = 10`, the default of R14, and `IDX_WORD = 31`, the normative value of R15. -/
def Config.normative : Config := { log2NMax := 10, idxWord := 31 }

/-- `VERSION` of the command set MXC-1 (R2, R37). -/
def Config.version : Nat := 1

/-- `N_MIN` (R13): the smallest legal cost. -/
def Config.nMin : Nat := 2

end Sys2Proof
end

