-- ==== Sys2Proof/Syntax.lean ====
section
/-!
DEFINITION. The instructions: one constructor for each row of spec/opcode_table.json, in the table's order. The four
commands (format C, `30_encoding.md` R92), the five engine steps (format SEQ, R99) and the twenty host accesses
(format BUS, R91, `43_host_bus.md`).
-/

namespace Sys2Proof

inductive Instr where
  /-- `MIX h`: `h` is bit 8 of the command word (R93). -/
  | mix (h : Fin 2)
  /-- `XMIX h`. -/
  | xmix (h : Fin 2)
  | bmix
  | romix
  | seqFill
  | seqMixp
  | seqMix
  | seqXmix
  | seqBmix
  /-- `RD X[k]`. -/
  | rdX (k : Fin 32)
  | rdNcost
  | rdCmd
  | rdStatus
  | rdCtr
  | rdJidx
  | rdId
  /-- `RD @a`, `a` in 0x98..0x9C; the operand is the word index `addr[7:2]`. -/
  | rdUnmapped98 (a : BitVec 6)
  /-- `RD @a`, `a` in 0xA0..0xBC. -/
  | rdUnmappedA0 (a : BitVec 6)
  /-- `RD @a`, `a` in 0xC0..0xFC. -/
  | rdUnmappedC0 (a : BitVec 6)
  /-- `WR X[k], v`. -/
  | wrX (k : Fin 32) (v : Word)
  | wrNcost (v : Word)
  /-- `WR CMD, w`: `w` is a command word, legal or not. -/
  | wrCmd (w : Word)
  | wrStatus (v : Word)
  | wrCtr (v : Word)
  | wrJidx (v : Word)
  | wrId (v : Word)
  /-- `WR @a, v`, `a` in 0x98..0x9C. -/
  | wrUnmapped98 (a : BitVec 6) (v : Word)
  /-- `WR @a, v`, `a` in 0xA0..0xBC. -/
  | wrUnmappedA0 (a : BitVec 6) (v : Word)
  /-- `WR @a, v`, `a` in 0xC0..0xFC. -/
  | wrUnmappedC0 (a : BitVec 6) (v : Word)
  deriving DecidableEq, Repr

end Sys2Proof
end

