-- ==== Sys2Proof/WellFormed.lean ====
section
/-!
DEFINITION. Which instruction terms the encoding can express. The types bound `h`, `k` and the data words; what is left
to check is that an unmapped word index lies in its row's range (`20_memory.md` R72; spec/opcode_table.json).
-/

namespace Sys2Proof

/-- Word indexes of byte addresses 0x98..0x9C. -/
def inUnmapped98 (a : BitVec 6) : Bool := decide (0x26 ≤ a.toNat) && decide (a.toNat ≤ 0x27)

/-- Word indexes of byte addresses 0xA0..0xBC. -/
def inUnmappedA0 (a : BitVec 6) : Bool := decide (0x28 ≤ a.toNat) && decide (a.toNat ≤ 0x2F)

/-- Word indexes of byte addresses 0xC0..0xFC. -/
def inUnmappedC0 (a : BitVec 6) : Bool := decide (0x30 ≤ a.toNat)

def Instr.wellFormed (i : Instr) : Bool :=
  match i with
  | .rdUnmapped98 a => inUnmapped98 a
  | .rdUnmappedA0 a => inUnmappedA0 a
  | .rdUnmappedC0 a => inUnmappedC0 a
  | .wrUnmapped98 a _ => inUnmapped98 a
  | .wrUnmappedA0 a _ => inUnmappedA0 a
  | .wrUnmappedC0 a _ => inUnmappedC0 a
  | .mix _ => true
  | .xmix _ => true
  | .bmix => true
  | .romix => true
  | .seqFill => true
  | .seqMixp => true
  | .seqMix => true
  | .seqXmix => true
  | .seqBmix => true
  | .rdX _ => true
  | .rdNcost => true
  | .rdCmd => true
  | .rdStatus => true
  | .rdCtr => true
  | .rdJidx => true
  | .rdId => true
  | .wrX _ _ => true
  | .wrNcost _ => true
  | .wrCmd _ => true
  | .wrStatus _ => true
  | .wrCtr _ => true
  | .wrJidx _ => true
  | .wrId _ => true

end Sys2Proof
end

