-- ==== Sys2Proof/Decode.lean ====
section
/-!
DEFINITION. The three encoded forms (`30_encoding.md` R90, R91), the decoder, total and rejecting by name, and after it
the encoder, both written from R92, R96, R99, `20_memory.md` R70 and spec/opcode_table.json.
-/

namespace Sys2Proof

/-- An instruction as the unit meets it: a command word on `CMD`, the sequencer's selector, or a bus access (R90, R91). -/
inductive Encoding where
  /-- Format C: a 32-bit command word. -/
  | c (w : Word)
  /-- Format SEQ: the selector `(PHASE[1:0], CMDL[7:0])`, PHASE in the high bits. -/
  | seq (sel : BitVec 10)
  /-- Format BUS: the selector `(we, addr[7:2])`, `we` in the high bit, and the write data. -/
  | bus (sel : BitVec 7) (wdata : Word)
  deriving DecidableEq, Repr

/-- Why an encoding spells no instruction. -/
inductive DecodeError where
  /-- OPC 0x00 or 0x05..0xFF (R96). -/
  | reservedOpcode
  /-- A bit of RSV, bits 31:9, is set (R96). -/
  | reservedBits
  /-- H = 1 with `BMIX` or `ROMIX` (R96). -/
  | halfSelect
  /-- PHASE = IDLE: the engine has no step (R26, R99). -/
  | engineIdle
  /-- A combination of PHASE and CMDL[7:0] that R99 does not list. -/
  | unreachableSelector
  deriving DecidableEq, Repr

/-- The answer of the decoder. -/
inductive Decoded where
  | ok (i : Instr)
  | error (e : DecodeError)
  deriving DecidableEq, Repr

/-- `OPC = w[7:0]` (R90, R95). -/
def cmdOpc (w : Word) : BitVec 8 := w.extractLsb' 0 8

/-- `H = w[8]` as the number `h` (R93). -/
def cmdH (w : Word) : Fin 2 := if w.getLsbD 8 then 1 else 0

/-- `RSV = w[31:9]` (R90). -/
def cmdRsv (w : Word) : BitVec 23 := w.extractLsb' 9 23

/-- Format C (R92, R96). -/
def decodeC (w : Word) : Decoded :=
  if cmdRsv w ≠ 0 then .error .reservedBits
  else if cmdOpc w = 1 then .ok (.mix (cmdH w))
  else if cmdOpc w = 2 then .ok (.xmix (cmdH w))
  else if cmdOpc w = 3 then (if cmdH w = 1 then .error .halfSelect else .ok .bmix)
  else if cmdOpc w = 4 then (if cmdH w = 1 then .error .halfSelect else .ok .romix)
  else .error .reservedOpcode

/-- Format SEQ (R99). -/
def decodeSeq (sel : BitVec 10) : Decoded :=
  if sel = 0x104 then .ok .seqFill
  else if sel = 0x204 then .ok .seqMixp
  else if sel = 0x301 then .ok .seqMix
  else if sel = 0x302 then .ok .seqXmix
  else if sel = 0x303 then .ok .seqBmix
  else if sel.extractLsb' 8 2 = 0 then .error .engineIdle
  else .error .unreachableSelector

/-- Format BUS, a read of the word index `a` (R70, R161 to R164). -/
def decodeRead (a : BitVec 6) : Instr :=
  if h : a.toNat < 32 then .rdX ⟨a.toNat, h⟩
  else if a = 0x20 then .rdNcost
  else if a = 0x21 then .rdCmd
  else if a = 0x22 then .rdStatus
  else if a = 0x23 then .rdCtr
  else if a = 0x24 then .rdJidx
  else if a = 0x25 then .rdId
  else if a.toNat < 0x28 then .rdUnmapped98 a
  else if a.toNat < 0x30 then .rdUnmappedA0 a
  else .rdUnmappedC0 a

/-- Format BUS, a write of `v` to the word index `a` (R70, R167 to R171). -/
def decodeWrite (a : BitVec 6) (v : Word) : Instr :=
  if h : a.toNat < 32 then .wrX ⟨a.toNat, h⟩ v
  else if a = 0x20 then .wrNcost v
  else if a = 0x21 then .wrCmd v
  else if a = 0x22 then .wrStatus v
  else if a = 0x23 then .wrCtr v
  else if a = 0x24 then .wrJidx v
  else if a = 0x25 then .wrId v
  else if a.toNat < 0x28 then .wrUnmapped98 a v
  else if a.toNat < 0x30 then .wrUnmappedA0 a v
  else .wrUnmappedC0 a v

/-- `wdata` is ignored when `we = 0` (R91). -/
def decodeBus (sel : BitVec 7) (wdata : Word) : Instr :=
  if sel.getLsbD 6 then decodeWrite (sel.extractLsb' 0 6) wdata else decodeRead (sel.extractLsb' 0 6)

def decode (e : Encoding) : Decoded :=
  match e with
  | .c w => decodeC w
  | .seq sel => decodeSeq sel
  | .bus sel wdata => .ok (decodeBus sel wdata)

/-- A command word from its fields (R90): OPC in bits 7:0, H in bit 8, RSV zero. -/
def cmdWord (opc : BitVec 8) (h : Fin 2) : Word := (0#23 ++ BitVec.ofNat 1 h.val) ++ opc

/-- The selector of a read of word index `a`; reads carry no data (R91), and the encoder puts 0 there (log 14). -/
def busRead (a : BitVec 6) : Encoding := .bus (0#1 ++ a) 0

/-- The selector of a write of word index `a`. -/
def busWrite (a : BitVec 6) (v : Word) : Encoding := .bus (1#1 ++ a) v

def encode (i : Instr) : Encoding :=
  match i with
  | .mix h => .c (cmdWord 1 h)
  | .xmix h => .c (cmdWord 2 h)
  | .bmix => .c (cmdWord 3 0)
  | .romix => .c (cmdWord 4 0)
  | .seqFill => .seq 0x104
  | .seqMixp => .seq 0x204
  | .seqMix => .seq 0x301
  | .seqXmix => .seq 0x302
  | .seqBmix => .seq 0x303
  | .rdX k => busRead (BitVec.ofNat 6 k.val)
  | .rdNcost => busRead 0x20
  | .rdCmd => busRead 0x21
  | .rdStatus => busRead 0x22
  | .rdCtr => busRead 0x23
  | .rdJidx => busRead 0x24
  | .rdId => busRead 0x25
  | .rdUnmapped98 a => busRead a
  | .rdUnmappedA0 a => busRead a
  | .rdUnmappedC0 a => busRead a
  | .wrX k v => busWrite (BitVec.ofNat 6 k.val) v
  | .wrNcost v => busWrite 0x20 v
  | .wrCmd w => busWrite 0x21 w
  | .wrStatus v => busWrite 0x22 v
  | .wrCtr v => busWrite 0x23 v
  | .wrJidx v => busWrite 0x24 v
  | .wrId v => busWrite 0x25 v
  | .wrUnmapped98 a v => busWrite a v
  | .wrUnmappedA0 a v => busWrite a v
  | .wrUnmappedC0 a v => busWrite a v

/-- The encoded form a table row of `nbits` bits stands for, `w` its bits: 32 a command word, 16 (the table's 10 in
whole bytes) a sequencer selector, 8 (the table's 7) a bus selector with write data 0, 40 a bus selector with its write
data above it (log 12). -/
def tableEncoding (nbits w : Nat) : Option Encoding :=
  if nbits = 32 then (if w < 2 ^ 32 then some (.c (BitVec.ofNat 32 w)) else none)
  else if nbits = 16 then (if w < 2 ^ 10 then some (.seq (BitVec.ofNat 10 w)) else none)
  else if nbits = 8 then (if w < 2 ^ 7 then some (.bus (BitVec.ofNat 7 w) 0) else none)
  else if nbits = 40 then
    (if w % 2 ^ 8 < 2 ^ 7 ∧ w < 2 ^ 40 then some (.bus (BitVec.ofNat 7 w) (BitVec.ofNat 32 (w / 2 ^ 8))) else none)
  else none

/-- The instruction the decoder reads from a table row's bits. -/
def decodeTableWord (nbits w : Nat) : Option Instr :=
  match tableEncoding nbits w with
  | none => none
  | some e =>
    match decode e with
    | .ok i => some i
    | .error _ => none

/-- A row of spec/opcode_table.json: how many bits its mask covers, and which words it matches. -/
structure TableRow where
  width : Nat
  mask : Nat
  pattern : Nat
  deriving DecidableEq, Repr

def TableRow.hits (r : TableRow) (word : Nat) : Bool := word &&& r.mask == r.pattern

/-- The row of spec/opcode_table.json of an instruction. -/
def Instr.row (i : Instr) : TableRow :=
  match i with
  | .mix _ => ⟨32, 0xFFFFFEFF, 0x00000001⟩
  | .xmix _ => ⟨32, 0xFFFFFEFF, 0x00000002⟩
  | .bmix => ⟨32, 0xFFFFFFFF, 0x00000003⟩
  | .romix => ⟨32, 0xFFFFFFFF, 0x00000004⟩
  | .seqFill => ⟨10, 0x3FF, 0x104⟩
  | .seqMixp => ⟨10, 0x3FF, 0x204⟩
  | .seqMix => ⟨10, 0x3FF, 0x301⟩
  | .seqXmix => ⟨10, 0x3FF, 0x302⟩
  | .seqBmix => ⟨10, 0x3FF, 0x303⟩
  | .rdX _ => ⟨7, 0x60, 0x00⟩
  | .rdNcost => ⟨7, 0x7F, 0x20⟩
  | .rdCmd => ⟨7, 0x7F, 0x21⟩
  | .rdStatus => ⟨7, 0x7F, 0x22⟩
  | .rdCtr => ⟨7, 0x7F, 0x23⟩
  | .rdJidx => ⟨7, 0x7F, 0x24⟩
  | .rdId => ⟨7, 0x7F, 0x25⟩
  | .rdUnmapped98 _ => ⟨7, 0x7E, 0x26⟩
  | .rdUnmappedA0 _ => ⟨7, 0x78, 0x28⟩
  | .rdUnmappedC0 _ => ⟨7, 0x70, 0x30⟩
  | .wrX _ _ => ⟨7, 0x60, 0x40⟩
  | .wrNcost _ => ⟨7, 0x7F, 0x60⟩
  | .wrCmd _ => ⟨7, 0x7F, 0x61⟩
  | .wrStatus _ => ⟨7, 0x7F, 0x62⟩
  | .wrCtr _ => ⟨7, 0x7F, 0x63⟩
  | .wrJidx _ => ⟨7, 0x7F, 0x64⟩
  | .wrId _ => ⟨7, 0x7F, 0x65⟩
  | .wrUnmapped98 _ _ => ⟨7, 0x7E, 0x66⟩
  | .wrUnmappedA0 _ _ => ⟨7, 0x78, 0x68⟩
  | .wrUnmappedC0 _ _ => ⟨7, 0x70, 0x70⟩

/-- The word a table row is matched against (R91), and its width. -/
def Encoding.tableWord (e : Encoding) : Nat :=
  match e with
  | .c w => w.toNat
  | .seq sel => sel.toNat
  | .bus sel _ => sel.toNat

def Encoding.width (e : Encoding) : Nat :=
  match e with
  | .c _ => 32
  | .seq _ => 10
  | .bus _ _ => 7

end Sys2Proof
end

