-- ==== Sys2Proof/Machine/State.lean ====
section
/-!
DEFINITION. The architectural state of one unit (`10_state.md` R21), the three fields the model adds (configuration,
bus read data, pending turns), why a step can stop, and the state after reset (R38, `70_reset_and_hazards.md` R210).
-/

namespace Sys2Proof.Machine

/-- `PHASE` (R26); its 2-bit code is `Phase.toBits`. -/
inductive Phase where
  | idle
  | fill
  | mixp
  | single
  deriving DecidableEq, Repr

/-- The codes of `STATUS.ERR` that the unit produces (R34, `60_exceptions.md` R180); codes 4 to 15 never occur, so they
have no constructor (log 20). -/
inductive ErrCode where
  | none
  | invalidParameter
  | allocationFailure
  | invalidCommand
  deriving DecidableEq, Repr

/-- One turn of the outside world's schedule (log 1): a host access `(we, addr[7:2], wdata)` (R91, R160), a turn of the
engine (R20), or a reset (R210). -/
inductive Turn where
  | access (we : Bool) (idx : BitVec 6) (wdata : Word)
  | engine
  | reset
  deriving DecidableEq, Repr

/-- The scratch space: byte address and byte, addresses strictly rising; an address not listed holds no value, as R39
and R211 ask (log 5). -/
abbrev Memory := List Host.Cell

structure State where
  /-- `LOG2_NMAX` and `IDX_WORD` (R14, R15, R41): configuration, never changed by a step (log 3). -/
  cfg : Config
  /-- The working block `X` (R22). -/
  x : Block
  /-- The scratch memory `V` (R39), as the bytes of the scratch space (R60). -/
  v : Memory
  /-- `NCOST` (R30). -/
  ncost : Word
  /-- `CMDL`, the last accepted command word (R31). -/
  cmdl : Word
  /-- `PHASE` (R26). -/
  phase : Phase
  /-- `CTR` (R27). -/
  ctr : Word
  /-- `JIDX` (R36). -/
  jidx : Word
  /-- `DONE` (R33). -/
  done : Bool
  /-- `ERR` (R34). -/
  err : ErrCode
  /-- `HOSTERR` (R35). -/
  hosterr : Bool
  /-- The wire `bus_rdata` (R173): what the last host read returned (log 4). -/
  rdata : Word
  /-- The turns still to come, first one first (log 1). -/
  script : List Turn
  deriving DecidableEq, Repr

/-- The machine stops with a fault. The spec gives the unit no fault; both of these are unreachable. -/
inductive Fault where
  /-- Raised by SEQ.MIXP on a scratch block with a byte no FILL step wrote (`93_implementation_defined.md` U9 asks for
  it). Safe: the model stops where the hardware reads an unspecified value. -/
  | scratchUnwritten
  /-- Raised by SEQ.FILL and SEQ.MIXP on a block number of `N_MAX` or more, where `20_memory.md` R64 and R65 define no
  access. Safe: the model stops. -/
  | scratchOutOfRange
  deriving DecidableEq, Repr

/-- The model gives no meaning. -/
inductive Refusal where
  /-- An instruction with no meaning yet, by its mnemonic. Safe. -/
  | notModelled (mnemonic : String)
  /-- Raised by the five engine steps in a sequencer state that does not enable them (`30_encoding.md` R99,
  `93_implementation_defined.md` U15 ask for a refusal). Safe. -/
  | stepNotEnabled
  /-- Raised by `step` when no host turn is pending, or the engine's turn comes, and PHASE is IDLE: the engine has no
  step (R26, R198). Safe. -/
  | noStep
  deriving DecidableEq, Repr

/-- What the next turn brings. -/
inductive Fetched where
  /-- Instruction `i`, run from state `s`. -/
  | instr (i : Instr) (s : State)
  /-- The reset event, in state `s`. -/
  | reset (s : State)
  | stop (r : Refusal)
  deriving DecidableEq, Repr

/-- The state after reset (R38, R210, R211). The values of `cfg`, `rdata` and `script` are the model's (logs 3, 4, 1). -/
def State.reset : State where
  cfg := Config.normative
  x := Vector.replicate 32 0
  v := []
  ncost := 0
  cmdl := 0
  phase := .idle
  ctr := 0
  jidx := 0
  done := false
  err := .none
  hosterr := false
  rdata := 0
  script := []

end Sys2Proof.Machine
end

