-- ==== Sys2Proof/Machine/Flags.lean ====
section
/-!
DEFINITION. The flags and the words the control registers read as: BUSY, `STATUS`, `ID`, the sequencer's selector and
the output wires (`10_state.md` R26, R29 to R37; `43_host_bus.md` R173).
-/

namespace Sys2Proof.Machine

/-- The 2-bit code of `PHASE` (R26). -/
def Phase.toBits (p : Phase) : BitVec 2 :=
  match p with
  | .idle => 0
  | .fill => 1
  | .mixp => 2
  | .single => 3

/-- The phase a 2-bit code names (R26). -/
def Phase.ofBits (b : BitVec 2) : Phase :=
  if b = 1 then .fill else if b = 2 then .mixp else if b = 3 then .single else .idle

/-- The 4-bit code of `ERR` (R34). -/
def ErrCode.toBits (e : ErrCode) : BitVec 4 :=
  match e with
  | .none => 0
  | .invalidParameter => 1
  | .allocationFailure => 2
  | .invalidCommand => 3

/-- The outcome a 4-bit code names; codes 4 to 15 are refused (`93_implementation_defined.md` U13). -/
def ErrCode.ofBits (b : BitVec 4) : Option ErrCode :=
  if b = 0 then some .none
  else if b = 1 then some .invalidParameter
  else if b = 2 then some .allocationFailure
  else if b = 3 then some .invalidCommand
  else Option.none

/-- `BUSY = (PHASE != IDLE)` (R21, R29). -/
def State.busy (s : State) : Bool := s.phase != .idle

/-- `STATUS` (R32): bits 31:9 zero, HOSTERR, ERR[3:0], PHASE[1:0], DONE, BUSY. -/
def State.statusWord (s : State) : Word :=
  0#23 ++ BitVec.ofBool s.hosterr ++ s.err.toBits ++ s.phase.toBits ++ BitVec.ofBool s.done ++ BitVec.ofBool s.busy

/-- `ID` (R37): bits 31:24 zero, VERSION, IDX_WORD, LOG2_NMAX. -/
def State.idWord (s : State) : Word :=
  0#8 ++ BitVec.ofNat 8 Config.version ++ BitVec.ofNat 8 s.cfg.idxWord.val ++ BitVec.ofNat 8 s.cfg.log2NMax

/-- The selector `(PHASE[1:0], CMDL[7:0])` of the engine's next step (R91). -/
def State.selector (s : State) : BitVec 10 := s.phase.toBits ++ cmdOpc s.cmdl

/-- The output wire `busy` (R173). -/
def State.busyWire (s : State) : Bool := s.busy

/-- The output wire `done`, a copy of `STATUS.DONE` (R173, `60_exceptions.md` R190). -/
def State.doneWire (s : State) : Bool := s.done

end Sys2Proof.Machine
end

