-- ==== Sys2Proof/Machine/Ops.lean ====
section
/-!
DEFINITION. The named operations every meaning is made of: the byte view of a block and the scratch space
(`20_memory.md` R62 to R69), rejecting a command, refusing a host access, accepting a command (`60_exceptions.md` R184,
R186; `30_encoding.md` R97, R98), the write to `CMD`, the gated register accesses, the sequencer's advance and the
reset event.
-/

namespace Sys2Proof.Machine

/-- `encode(B)` (R62): byte `4k + m` is byte `m` of word `k`. -/
def encodeBlock (b : Block) : Bytes128 :=
  Vector.ofFn fun n : Fin 128 => (b[n.val / 4]'(by omega)).extractLsb' (8 * (n.val % 4)) 8

/-- `decode(b)` (R62): word `k` from bytes `4k` (low) to `4k + 3` (high). -/
def decodeBytes (b : Bytes128) : Block :=
  Vector.ofFn fun k : Fin 32 =>
    b[4 * k.val + 3]'(by omega) ++ b[4 * k.val + 2]'(by omega) ++ b[4 * k.val + 1]'(by omega) ++ b[4 * k.val]'(by omega)

/-- The canonical form of the scratch space: addresses strictly rising. Every listed byte differs from what an unlisted
address reads as, since that is no value. -/
abbrev Memory.wf (m : Memory) : Prop := m.Pairwise fun c d => c.1 < d.1

/-- One byte of the scratch space; `none` where no byte has been written (R39, log 5). -/
def readByte (m : Memory) (a : Nat) : Option Byte :=
  match m with
  | [] => none
  | c :: m => if c.1 = a then some c.2 else readByte m a

/-- `MemRead(a, 128)` (R64): the 128 bytes at `a`, if every one of them has been written. -/
def memRead (m : Memory) (a : Nat) : Option Bytes128 :=
  if h : ∀ n : Fin 128, (readByte m (a + n.val)).isSome then
    some (Vector.ofFn fun n : Fin 128 => (readByte m (a + n.val)).get (h n))
  else none

/-- The 128 cells that hold `b` at `a`. -/
def blockCells (a : Nat) (b : Bytes128) : Memory := List.ofFn fun n : Fin 128 => (a + n.val, b[n.val])

/-- `MemWrite(a, 128, b)` (R65): the bytes at `a` replaced by `b`, every other byte as it was. -/
def memWrite (m : Memory) (a : Nat) (b : Bytes128) : Memory :=
  m.filter (fun c => c.1 < a) ++ (blockCells a b ++ m.filter (fun c => a + 128 ≤ c.1))

/-- The effective address of scratch block `i` (R67), over the integers. -/
def blockAddr (i : Nat) : Nat := 128 * i

/-- `V[i]` (R19, R64); defined only for `i < N_MAX`. -/
def scratchRead (s : State) (i : Nat) : Except Fault Block :=
  if i < s.cfg.nMax then
    match memRead s.v (blockAddr i) with
    | some b => .ok (decodeBytes b)
    | none => .error .scratchUnwritten
  else .error .scratchOutOfRange

/-- `V[i] <- b` (R19, R65); defined only for `i < N_MAX`. -/
def scratchWrite (s : State) (i : Nat) (b : Block) : Except Fault State :=
  if i < s.cfg.nMax then .ok { s with v := memWrite s.v (blockAddr i) (encodeBlock b) }
  else .error .scratchOutOfRange

/-- `raise E()` with code `c` (R184): the one way a command fails. There is no return from it (R189). -/
def State.raise (s : State) (c : ErrCode) : State := { s with err := c, done := true }

/-- A refused host write (R186). -/
def State.refuseAccess (s : State) : State := { s with hosterr := true }

/-- A refused host read (R163, R186): it returns 0. -/
def State.refuseRead (s : State) : State := { s with rdata := 0, hosterr := true }

/-- A host read that returns `v` (R161, R162). -/
def State.returnRead (s : State) (v : Word) : State := { s with rdata := v }

/-- Check 1 of R97: does the word spell no command (R96)? -/
def cmdIllegal (w : Word) : Bool :=
  !(cmdOpc w == 1 || cmdOpc w == 2 || cmdOpc w == 3 || cmdOpc w == 4) || cmdRsv w != 0 ||
    ((cmdOpc w == 3 || cmdOpc w == 4) && cmdH w == 1)

/-- First half of check 2 of R97 (R181): the cost is below 2 or not a power of two. -/
def costIllegal (n : Word) : Bool := decide (n.toNat < Config.nMin) || (n &&& (n - 1)) != 0

/-- The acceptance checks of R97 in their order; `.none` means that all pass. -/
def acceptanceCheck (w : Word) (s : State) : ErrCode :=
  if cmdIllegal w then .invalidCommand
  else if cmdOpc w = 4 then
    if costIllegal s.ncost then .invalidParameter
    else if s.cfg.nMax < s.ncost.toNat then .allocationFailure
    else .none
  else .none

/-- Acceptance (R98). -/
def State.accept (s : State) (w : Word) : State :=
  { s with
    cmdl := w
    err := .none
    done := false
    ctr := 0
    phase := if cmdOpc w = 4 then .fill else .single }

/-- A host write of `w` to `CMD`: refused while BUSY (R169), else decoded, checked, and accepted or rejected (R95, R97,
R98, R168, R184). -/
def writeCmd (w : Word) (s : State) : State :=
  if s.busy then s.refuseAccess
  else
    match acceptanceCheck w s with
    | .none => s.accept w
    | c => s.raise c

/-- A read of a register that may be read only while IDLE (R162, R163). -/
def readWhenIdle (v : Word) (s : State) : State := if s.busy then s.refuseRead else s.returnRead v

/-- `pc <- (p, c)` (R19, R25). -/
def State.setPc (s : State) (p : Phase) (c : Word) : State := { s with phase := p, ctr := c }

/-- The end of a single command's step: `pc <- (IDLE, 0)`, `DONE <- 1` (R118, R132, R133). -/
def State.finish (s : State) : State := { s.setPc .idle 0 with done := true }

/-- Is this the last iteration, `CTR + 1 = NCOST`, over the integers (R27, R151)? -/
def State.lastIteration (s : State) : Bool := s.ctr.toNat + 1 == s.ncost.toNat

/-- The reset event (R210, R211): every register and flag to its reset value, no value left in `V` (log 6). The
configuration, the pending turns and the data last returned to the host are not the unit's registers. -/
def State.applyReset (s : State) : State :=
  { State.reset with cfg := s.cfg, rdata := s.rdata, script := s.script }

end Sys2Proof.Machine
end

