-- ==== Sys2Proof/Machine/Operands.lean ====
section
/-!
DEFINITION. The operand forms: a half of the working block (`10_state.md` R23, `30_encoding.md` R93), the half named by
`CMDL[8]` (R99), the cost (R94), and a word register of `X` (R22). The engine's block numbers `CTR` and `Index` (R174)
are read where they are used.
-/

namespace Sys2Proof.Machine

/-- `HALF(h)`, words `16h` to `16h + 15` (R19, R23). -/
def getHalf (h : Fin 2) (x : Block) : Half := Vector.ofFn fun k : Fin 16 => x[16 * h.val + k.val]'(by omega)

/-- `HALF(h) <- a`: the other half keeps its words (R19, R24). -/
def setHalf (h : Fin 2) (a : Half) (x : Block) : Block :=
  Vector.ofFn fun k : Fin 32 => if k.val / 16 = h.val then a[k.val % 16]'(by omega) else x[k.val]

/-- `1 - h` (R93): the other half. -/
def otherHalf (h : Fin 2) : Fin 2 := if h = 0 then 1 else 0

/-- The half a `MIX` or `XMIX` step works on, `h = CMDL[8]` (R99, R118, R132). -/
def State.stepHalf (s : State) : Fin 2 := cmdH s.cmdl

/-- `X[k] <- v` (R22, R167). -/
def State.setX (s : State) (k : Fin 32) (v : Word) : State := { s with x := s.x.set k.val v }

end Sys2Proof.Machine
end

