-- ==== Sys2Proof/Machine/HostBus.lean ====
section
/-!
DEFINITION. The host's accesses to the register window (`43_host_bus.md` R160 to R172): seven reads of registers, three
ranges of unmapped reads, seven writes of registers, three ranges of unmapped writes.
-/

namespace Sys2Proof.Machine

/-- `RD X[k]` (R162, R163). -/
def execRdX (k : Fin 32) (s : State) : Host.Outcome State Fault Refusal := .next (readWhenIdle s.x[k.val] s)

/-- `RD NCOST` (R162, R163). -/
def execRdNcost (s : State) : Host.Outcome State Fault Refusal := .next (readWhenIdle s.ncost s)

/-- `RD CMD` (R31, R162, R163): the last accepted command word. -/
def execRdCmd (s : State) : Host.Outcome State Fault Refusal := .next (readWhenIdle s.cmdl s)

/-- `RD STATUS` (R161), at any time. -/
def execRdStatus (s : State) : Host.Outcome State Fault Refusal := .next (s.returnRead s.statusWord)

/-- `RD CTR` (R161), at any time. -/
def execRdCtr (s : State) : Host.Outcome State Fault Refusal := .next (s.returnRead s.ctr)

/-- `RD JIDX` (R162, R163). -/
def execRdJidx (s : State) : Host.Outcome State Fault Refusal := .next (readWhenIdle s.jidx s)

/-- `RD ID` (R161), at any time. -/
def execRdId (s : State) : Host.Outcome State Fault Refusal := .next (s.returnRead s.idWord)

/-- `RD @0x98..0x9C`: unmapped, refused at any time (R72, R164). -/
def execRdUnmapped98 (_a : BitVec 6) (s : State) : Host.Outcome State Fault Refusal := .next s.refuseRead

/-- `RD @0xA0..0xBC`: unmapped, refused at any time (R72, R164). -/
def execRdUnmappedA0 (_a : BitVec 6) (s : State) : Host.Outcome State Fault Refusal := .next s.refuseRead

/-- `RD @0xC0..0xFC`: unmapped, refused at any time (R72, R164). -/
def execRdUnmappedC0 (_a : BitVec 6) (s : State) : Host.Outcome State Fault Refusal := .next s.refuseRead

/-- `WR X[k], v` (R167, R169). -/
def execWrX (k : Fin 32) (v : Word) (s : State) : Host.Outcome State Fault Refusal :=
  .next (if s.busy then s.refuseAccess else s.setX k v)

/-- `WR NCOST, v` (R167, R169): any value is stored, none is checked. -/
def execWrNcost (v : Word) (s : State) : Host.Outcome State Fault Refusal :=
  .next (if s.busy then s.refuseAccess else { s with ncost := v })

/-- `WR CMD, w` (R168, R169). -/
def execWrCmd (w : Word) (s : State) : Host.Outcome State Fault Refusal := .next (writeCmd w s)

/-- `WR STATUS, v` (R170), at any time: bit 8 set clears HOSTERR, every other bit is ignored. -/
def execWrStatus (v : Word) (s : State) : Host.Outcome State Fault Refusal :=
  .next (if v.getLsbD 8 then { s with hosterr := false } else s)

/-- `WR CTR, v`: read-only, refused at any time (R171). -/
def execWrCtr (_v : Word) (s : State) : Host.Outcome State Fault Refusal := .next s.refuseAccess

/-- `WR JIDX, v`: read-only, refused at any time (R171). -/
def execWrJidx (_v : Word) (s : State) : Host.Outcome State Fault Refusal := .next s.refuseAccess

/-- `WR ID, v`: read-only, refused at any time (R171). -/
def execWrId (_v : Word) (s : State) : Host.Outcome State Fault Refusal := .next s.refuseAccess

/-- `WR @0x98..0x9C, v`: unmapped, refused at any time (R72, R171). -/
def execWrUnmapped98 (_a : BitVec 6) (_v : Word) (s : State) : Host.Outcome State Fault Refusal := .next s.refuseAccess

/-- `WR @0xA0..0xBC, v`: unmapped, refused at any time (R72, R171). -/
def execWrUnmappedA0 (_a : BitVec 6) (_v : Word) (s : State) : Host.Outcome State Fault Refusal := .next s.refuseAccess

/-- `WR @0xC0..0xFC, v`: unmapped, refused at any time (R72, R171). -/
def execWrUnmappedC0 (_a : BitVec 6) (_v : Word) (s : State) : Host.Outcome State Fault Refusal := .next s.refuseAccess

end Sys2Proof.Machine
end

