-- ==== Sys2Proof/Machine/MixCore.lean ====
section
/-!
DEFINITION. The MixCore primitive (`40_mixcore.md` R110 to R117), the `MIX h` command and its engine step (R118).
-/

namespace Sys2Proof.Machine

/-- Rotation left, used with `1 ≤ r ≤ 31` (R111). -/
def rotl32 (v : Word) (r : Nat) : Word := (v <<< r) ||| (v >>> (32 - r))

/-- `update(x, t, a, b, r)` (R112). -/
def update (x : Half) (t a b : Fin 16) (r : Nat) : Half := x.set t.val (x[t.val] ^^^ rotl32 (x[a.val] + x[b.val]) r)

/-- The sixteen updates of the column round in order, each `(t, a, b, r)` (R113; the indices: log 15). -/
def columnRound : List (Fin 16 × Fin 16 × Fin 16 × Nat) :=
  [(4, 0, 12, 7), (9, 5, 1, 7), (14, 10, 6, 7), (3, 15, 11, 7)] ++
  [(8, 4, 0, 9), (13, 9, 5, 9), (2, 14, 10, 9), (7, 3, 15, 9)] ++
  [(12, 8, 4, 13), (1, 13, 9, 13), (6, 2, 14, 13), (11, 7, 3, 13)] ++
  [(0, 12, 8, 18), (5, 1, 13, 18), (10, 6, 2, 18), (15, 11, 7, 18)]

/-- The sixteen updates of the row round in order (R114; the indices: log 15). -/
def rowRound : List (Fin 16 × Fin 16 × Fin 16 × Nat) :=
  [(1, 0, 3, 7), (6, 5, 4, 7), (11, 10, 9, 7), (12, 15, 14, 7)] ++
  [(2, 1, 0, 9), (7, 6, 5, 9), (8, 11, 10, 9), (13, 12, 15, 9)] ++
  [(3, 2, 1, 13), (4, 7, 6, 13), (9, 8, 11, 13), (14, 13, 12, 13)] ++
  [(0, 3, 2, 18), (5, 4, 7, 18), (10, 9, 8, 18), (15, 14, 13, 18)]

/-- The updates of a round, first one first. -/
def applyRound (u : List (Fin 16 × Fin 16 × Fin 16 × Nat)) (x : Half) : Half :=
  match u with
  | [] => x
  | (t, a, b, r) :: u => applyRound u (update x t a b r)

/-- The column round followed by the row round (R115). -/
def doubleRound (x : Half) : Half := applyRound rowRound (applyRound columnRound x)

/-- `d` double rounds. -/
def doubleRounds (d : Nat) (x : Half) : Half :=
  match d with
  | 0 => x
  | d + 1 => doubleRounds d (doubleRound x)

/-- `Salsa20_8(a)`: four double rounds on a copy of `a` (R116). Irreducible, so that no proof unrolls the rounds unasked. -/
@[irreducible] def salsa20_8 (a : Half) : Half := doubleRounds 4 a

/-- `A add16 B` (R117, R120). -/
def add16 (a b : Half) : Half := a.zipWith (fun u v => u + v) b

/-- `MixCore(a)`: the feed-forward sum of the input and its permutation (R117). -/
def mixCore (a : Half) : Half := add16 a (salsa20_8 a)

/-- `MIX h`: the host's write of its word to `CMD` (R92, R101, R118). -/
def execMix (h : Fin 2) (s : State) : Host.Outcome State Fault Refusal := .next (writeCmd (cmdWord 1 h) s)

/-- `SEQ.MIX` (R118): `HALF(h) <- MixCore(HALF(h))`, `h = CMDL[8]`. -/
def execSeqMix (s : State) : Host.Outcome State Fault Refusal :=
  if s.selector = 0x301 then
    .next { s with x := setHalf s.stepHalf (mixCore (getHalf s.stepHalf s.x)) s.x }.finish
  else .refused .stepNotEnabled

end Sys2Proof.Machine
end

