-- ==== Sys2Proof/Machine/BlockMix.lean ====
section
/-!
DEFINITION. The BlockMix combiner (`41_blockmix.md` R130, R131), the `XMIX h` and `BMIX` commands and their engine steps
(R132, R133).
-/

namespace Sys2Proof.Machine

/-- `A xor16 B` (R130). -/
def xor16 (a b : Half) : Half := a.zipWith (fun u v => u ^^^ v) b

/-- `BlockMix(B)`: the first half mixed with the old second half, then the second with the new first (R131, R135).
Irreducible, so that no proof unfolds it unasked. -/
@[irreducible] def blockMix (b : Block) : Block :=
  let a1 := mixCore (xor16 (getHalf 0 b) (getHalf 1 b))
  let b1 := mixCore (xor16 (getHalf 1 b) a1)
  setHalf 1 b1 (setHalf 0 a1 b)

/-- `XMIX h`: the host's write of its word to `CMD` (R92, R101, R132). -/
def execXmix (h : Fin 2) (s : State) : Host.Outcome State Fault Refusal := .next (writeCmd (cmdWord 2 h) s)

/-- `SEQ.XMIX` (R132): `HALF(h) <- MixCore(HALF(h) xor16 HALF(1-h))`, `h = CMDL[8]`. -/
def execSeqXmix (s : State) : Host.Outcome State Fault Refusal :=
  if s.selector = 0x302 then
    .next { s with
      x := setHalf s.stepHalf (mixCore (xor16 (getHalf s.stepHalf s.x) (getHalf (otherHalf s.stepHalf) s.x))) s.x }.finish
  else .refused .stepNotEnabled

/-- `BMIX`: the host's write of its word to `CMD` (R92, R101, R133). -/
def execBmix (s : State) : Host.Outcome State Fault Refusal := .next (writeCmd (cmdWord 3 0) s)

/-- `SEQ.BMIX` (R133): `X <- BlockMix(X)`. -/
def execSeqBmix (s : State) : Host.Outcome State Fault Refusal :=
  if s.selector = 0x303 then .next { s with x := blockMix s.x }.finish
  else .refused .stepNotEnabled

end Sys2Proof.Machine
end

