-- ==== Sys2Proof/Machine/RoMix.lean ====
section
/-!
DEFINITION. The ROMix scheduler (`42_romix.md`): the pure function `ROMix` (R141), the index (R145), the `ROMIX` command
(R142) and its two engine steps, the fill store (R143) and the indexed read (R144).
-/

namespace Sys2Proof.Machine

/-- `A xor32v B` (R140). -/
def xor32v (a b : Block) : Block := a.zipWith (fun u v => u ^^^ v) b

/-- `Index(B, N) = B[IDX_WORD] and (N - 1)` (R145). -/
def index (idxWord : Fin 32) (b : Block) (n : Word) : Word := b[idxWord.val] &&& (n - 1)

/-- `BlockMix` applied `i` times: the block the fill phase stores in `V[i]` (R141). -/
def blockMixIter (i : Nat) (b : Block) : Block :=
  match i with
  | 0 => b
  | i + 1 => blockMix (blockMixIter i b)

/-- `k` iterations of the mix phase of `ROMix(b, n)` on `x` (R141), where `V[j]` is `blockMixIter j b`. -/
def mixPhase (idxWord : Fin 32) (b : Block) (n : Word) (k : Nat) (x : Block) : Block :=
  match k with
  | 0 => x
  | k + 1 => mixPhase idxWord b n k (blockMix (xor32v x (blockMixIter (index idxWord x n).toNat b)))

/-- `ROMix(b, n)` as the source states it (R141): the fill phase, then the mix phase. -/
def roMix (idxWord : Fin 32) (b : Block) (n : Word) : Block :=
  mixPhase idxWord b n n.toNat (blockMixIter n.toNat b)

/-- `ROMIX`: the host's write of its word to `CMD` (R92, R101, R142). -/
def execRomix (s : State) : Host.Outcome State Fault Refusal := .next (writeCmd (cmdWord 4 0) s)

/-- Where `pc` goes after a FILL step (R143). -/
def State.afterFill (s : State) : State :=
  if s.lastIteration then s.setPc .mixp 0 else s.setPc .fill (s.ctr + 1)

/-- Where `pc` goes after a MIXP step, and DONE on the last one (R144). -/
def State.afterMixp (s : State) : State :=
  if s.lastIteration then s.finish else s.setPc .mixp (s.ctr + 1)

/-- `SEQ.FILL` (R143): the block is stored before it is mixed. -/
def execSeqFill (s : State) : Host.Outcome State Fault Refusal :=
  if s.selector = 0x104 then
    match scratchWrite s s.ctr.toNat s.x with
    | .error f => .fault f
    | .ok t => .next { t with x := blockMix s.x }.afterFill
  else .refused .stepNotEnabled

/-- `SEQ.MIXP` (R144): the index is taken from `X` before `X` changes. -/
def execSeqMixp (s : State) : Host.Outcome State Fault Refusal :=
  if s.selector = 0x204 then
    let j := index s.cfg.idxWord s.x s.ncost
    match scratchRead s j.toNat with
    | .error f => .fault f
    | .ok b => .next { s with jidx := j, x := blockMix (xor32v s.x b) }.afterMixp
  else .refused .stepNotEnabled

end Sys2Proof.Machine
end

