-- ==== Sys2Proof/Machine/Dispatch.lean ====
section
/-!
DEFINITION. One arm per constructor of Instr, each a direct call of that instruction's own meaning.
-/

namespace Sys2Proof.Machine

def exec (i : Instr) (s : State) : Host.Outcome State Fault Refusal :=
  match i with
  | .mix h => Sys2Proof.Machine.execMix h s
  | .xmix h => Sys2Proof.Machine.execXmix h s
  | .bmix => Sys2Proof.Machine.execBmix s
  | .romix => Sys2Proof.Machine.execRomix s
  | .seqFill => Sys2Proof.Machine.execSeqFill s
  | .seqMixp => Sys2Proof.Machine.execSeqMixp s
  | .seqMix => Sys2Proof.Machine.execSeqMix s
  | .seqXmix => Sys2Proof.Machine.execSeqXmix s
  | .seqBmix => Sys2Proof.Machine.execSeqBmix s
  | .rdX k => Sys2Proof.Machine.execRdX k s
  | .rdNcost => Sys2Proof.Machine.execRdNcost s
  | .rdCmd => Sys2Proof.Machine.execRdCmd s
  | .rdStatus => Sys2Proof.Machine.execRdStatus s
  | .rdCtr => Sys2Proof.Machine.execRdCtr s
  | .rdJidx => Sys2Proof.Machine.execRdJidx s
  | .rdId => Sys2Proof.Machine.execRdId s
  | .rdUnmapped98 a => Sys2Proof.Machine.execRdUnmapped98 a s
  | .rdUnmappedA0 a => Sys2Proof.Machine.execRdUnmappedA0 a s
  | .rdUnmappedC0 a => Sys2Proof.Machine.execRdUnmappedC0 a s
  | .wrX k v => Sys2Proof.Machine.execWrX k v s
  | .wrNcost v => Sys2Proof.Machine.execWrNcost v s
  | .wrCmd w => Sys2Proof.Machine.execWrCmd w s
  | .wrStatus v => Sys2Proof.Machine.execWrStatus v s
  | .wrCtr v => Sys2Proof.Machine.execWrCtr v s
  | .wrJidx v => Sys2Proof.Machine.execWrJidx v s
  | .wrId v => Sys2Proof.Machine.execWrId v s
  | .wrUnmapped98 a v => Sys2Proof.Machine.execWrUnmapped98 a v s
  | .wrUnmappedA0 a v => Sys2Proof.Machine.execWrUnmappedA0 a v s
  | .wrUnmappedC0 a v => Sys2Proof.Machine.execWrUnmappedC0 a v s

end Sys2Proof.Machine
end

