-- ==== Sys2Proof/Machine/Fetch.lean ====
section
/-!
DEFINITION. What the next turn brings (logs 1, 2), and how a word of the opcode table is placed so that the next step
runs it (log 11).
-/

namespace Sys2Proof.Machine

/-- The bus encoding of a host access (`43_host_bus.md` R160). -/
def accessEncoding (we : Bool) (idx : BitVec 6) (wdata : Word) : Encoding := .bus (BitVec.ofBool we ++ idx) wdata

/-- The refusal a selector that enables no step turns into: an idle engine has no step (R26), any other such selector is
unreachable and refused (R99). -/
def stopReason (e : DecodeError) : Refusal :=
  match e with
  | .engineIdle => .noStep
  | .unreachableSelector => .stepNotEnabled
  | .reservedOpcode => .stepNotEnabled
  | .reservedBits => .stepNotEnabled
  | .halfSelect => .stepNotEnabled

/-- The instruction an encoding spells, run from `s`. -/
def fetchEncoding (e : Encoding) (s : State) : Fetched :=
  match decode e with
  | .ok i => .instr i s
  | .error r => .stop (stopReason r)

/-- The next turn: the first of the script, or the engine's when no turn is pending (R20, R91, R221). -/
def fetch (s : State) : Fetched :=
  match s.script with
  | [] => fetchEncoding (.seq s.selector) s
  | .engine :: rest => fetchEncoding (.seq s.selector) { s with script := rest }
  | .access we idx wdata :: rest => fetchEncoding (accessEncoding we idx wdata) { s with script := rest }
  | .reset :: rest => .reset { s with script := rest }

/-- A block of zeros at the block `SEQ.MIXP` reads next, if that block holds no value: R42 (f) has every block a MIXP
step can read written, and a MIXP step placed by hand has no fill phase before it (log 11). -/
def withIndexedBlock (s : State) : State :=
  let a := blockAddr (index s.cfg.idxWord s.x s.ncost).toNat
  match memRead s.v a with
  | some _ => s
  | none => { s with v := memWrite s.v a (Vector.replicate 128 0) }

/-- `s` with an encoding placed so that the next step runs it (log 11): a command word as the host's write to `CMD`, a
selector as the sequencer's state and the engine's turn, a bus access as the host's turn. -/
def place (s : State) (e : Encoding) : State :=
  match e with
  | .c w => { s with script := .access true 0x21 w :: s.script }
  | .bus sel wdata => { s with script := .access (sel.getLsbD 6) (sel.extractLsb' 0 6) wdata :: s.script }
  | .seq sel =>
    let t : State :=
      { s with
        phase := Phase.ofBits (sel.extractLsb' 8 2)
        cmdl := s.cmdl.extractLsb' 8 24 ++ sel.extractLsb' 0 8
        script := .engine :: s.script }
    if sel = 0x204 then withIndexedBlock t else t

end Sys2Proof.Machine
end

