-- ==== Sys2Proof/Machine/Step.lean ====
section
/-!
DEFINITION. One step of the machine: the next turn is taken (`10_state.md` R20, `20_memory.md` R73). Also where the host
places an instruction that the next step is to run (log 11).
-/

namespace Sys2Proof.Machine

/-- Taking what the turn brings: an instruction, or the reset event. -/
def runFetched (f : Fetched) : Host.Outcome State Fault Refusal :=
  match f with
  | .instr i t => exec i t
  | .reset t => .next t.applyReset
  | .stop r => .refused r

def step (s : State) : Host.Outcome State Fault Refusal := runFetched (fetch s)

/-- `s` with the table word `w` of `nbits` bits placed for the next step; unchanged if no row has that width. -/
def State.withFetchWord (s : State) (nbits w : Nat) : State :=
  match tableEncoding nbits w with
  | none => s
  | some e => place s e

end Sys2Proof.Machine
end

