-- ==== Sys2Proof/Machine/Script.lean ====
section
/-!
DEFINITION. Host scripts (`30_encoding.md` R100 to R102): the pseudo-instructions as lists of turns, `STBLK` with the
bytes it yields, `WAIT` as the host's own loop (log 13), and `ROMIXN` composed of `SETN`, `ROMIX` and `WAIT`.
-/

namespace Sys2Proof.Machine

/-- `WR <reg>, v`: one host write to the word index `a` (R100). -/
def wr (a : BitVec 6) (v : Word) : Turn := .access true a v

/-- `RD <reg>`: one host read of the word index `a` (R100). -/
def rd (a : BitVec 6) : Turn := .access false a 0

/-- A command mnemonic: the write of its word to `CMD` (R101). -/
def command (w : Word) : Turn := wr 0x21 w

/-- `SETN n` (R102). -/
def setn (n : Word) : List Turn := [wr 0x20 n]

/-- `LDW w0 .. w31` (R102): `WR X[k], wk` in order. -/
def ldw (b : Block) : List Turn := List.ofFn fun k : Fin 32 => wr (BitVec.ofNat 6 k.val) b[k.val]

/-- `LDBLK b` (R102, R63). -/
def ldblk (b : Bytes128) : List Turn := ldw (decodeBytes b)

/-- `LDHALF h, w0 .. w15` (R102). -/
def ldhalf (h : Fin 2) (a : Half) : List Turn :=
  List.ofFn fun k : Fin 16 => wr (BitVec.ofNat 6 (16 * h.val + k.val)) a[k.val]

/-- The thirty-two reads of `STBLK` (R102); the bytes it yields are `stblkBytes`. -/
def stblk : List Turn := List.ofFn fun k : Fin 32 => rd (BitVec.ofNat 6 k.val)

/-- `CLRHE` (R102). -/
def clrhe : List Turn := [wr 0x22 0x100]

/-- The turns of `ROMIXN n` before its `WAIT` (R102): `SETN n`, then `ROMIX`. -/
def romixnTurns (n : Word) : List Turn := setn n ++ [command 4]

/-- One turn taken at `s` before the turns already pending. -/
def takeTurn (t : Turn) (s : State) : Host.Outcome State Fault Refusal := step { s with script := t :: s.script }

/-- The words a list of turns returns to the host, one for each turn, and the state after it. -/
def takeTurns (ts : List Turn) (s : State) : Host.Outcome (List Word × State) Fault Refusal :=
  match ts with
  | [] => .next ([], s)
  | t :: ts =>
    match takeTurn t s with
    | .fault f => .fault f
    | .refused r => .refused r
    | .next s1 =>
      match takeTurns ts s1 with
      | .fault f => .fault f
      | .refused r => .refused r
      | .next (ws, s2) => .next (s1.rdata :: ws, s2)

/-- `WAIT` (R102): `RD STATUS` until the value read has bit 0 clear, with one engine step between two reads, for at most
`fuel` engine steps; `none` when the fuel runs out or a turn stops (log 13). -/
def hostWait (fuel : Nat) (s : State) : Option State :=
  match takeTurn (rd 0x22) s with
  | .fault _ => none
  | .refused _ => none
  | .next s1 =>
    if s1.rdata.getLsbD 0 then
      match fuel with
      | 0 => none
      | fuel + 1 =>
        match takeTurn .engine s1 with
        | .fault _ => none
        | .refused _ => none
        | .next s2 => hostWait fuel s2
    else some s1

/-- The block that thirty-two words, read in order, make up; a missing word would be 0, and `takeTurns` returns one word
for each turn. -/
def blockOfWords (ws : List Word) : Block := Vector.ofFn fun k : Fin 32 => ws.getD k.val 0

/-- `STBLK` (R102): the thirty-two reads, and the 128 bytes that are `encode` of the words they return. -/
def stblkBytes (s : State) : Host.Outcome (Bytes128 × State) Fault Refusal :=
  match takeTurns stblk s with
  | .fault f => .fault f
  | .refused r => .refused r
  | .next (ws, t) => .next (encodeBlock (blockOfWords ws), t)

/-- `ROMIXN n` (R102): `SETN n`, `ROMIX`, `WAIT`, with the fuel of its `WAIT`; `none` when a turn stops or the fuel runs
out (log 13). -/
def romixn (fuel : Nat) (n : Word) (s : State) : Option State :=
  match takeTurns (romixnTurns n) s with
  | .fault _ => none
  | .refused _ => none
  | .next (_, t) => hostWait fuel t

end Sys2Proof.Machine
end

