-- ==== Sys2Proof/Safety.lean ====
section
/-!
DEFINITION. What claims call a good state: the invariant of `10_state.md` R42, with the form of the scratch memory, and
the premise `60_exceptions.md` R186 asks claims about scripts to take.
-/

namespace Sys2Proof.Machine

/-- `ROMIX` accepts this cost (R13, R30, R97): a power of two, `2 ≤ N ≤ N_MAX`. -/
def legalCost (c : Config) (n : Word) : Bool := !costIllegal n && decide (n.toNat ≤ c.nMax)

/-- Every byte of scratch block `i` has been written. -/
def State.blockWritten (s : State) (i : Nat) : Prop := ∀ n : Fin 128, (readByte s.v (blockAddr i + n.val)).isSome

/-- The invariant of R42 and R27, with the parameters in range (R14), the scratch list in its canonical form and inside
the scratch space (R60). Clauses (f) and (g) are here that the block holds a value. -/
structure State.Inv (s : State) : Prop where
  cfgWf : s.cfg.wf = true
  memWf : Memory.wf s.v
  memRange : ∀ c ∈ s.v, c.1 < 128 * s.cfg.nMax
  busyFlags : s.busy = true → s.done = false ∧ s.err = .none
  loop : s.phase = .fill ∨ s.phase = .mixp →
    legalCost s.cfg s.ncost = true ∧ s.ctr.toNat < s.ncost.toNat ∧ cmdOpc s.cmdl = 4
  ctrZero : s.phase = .idle ∨ s.phase = .single → s.ctr = 0
  single : s.phase = .single → cmdOpc s.cmdl = 1 ∨ cmdOpc s.cmdl = 2 ∨ cmdOpc s.cmdl = 3
  fillWritten : s.phase = .fill → ∀ i < s.ctr.toNat, s.blockWritten i
  mixpWritten : s.phase = .mixp → ∀ i < s.ncost.toNat, s.blockWritten i

/-- `n` steps, stopping at the first fault or refusal. -/
def runSteps (n : Nat) (s : State) : Host.Outcome State Fault Refusal :=
  match n with
  | 0 => .next s
  | n + 1 =>
    match step s with
    | .next t => runSteps n t
    | .fault f => .fault f
    | .refused r => .refused r

/-- The table of `43_host_bus.md` R172, its X entries: does the unit refuse this access, BUSY or not (R186)? A command
mnemonic is a write to `CMD` (R101); an engine step is no access. -/
def accessRefused (i : Instr) (busy : Bool) : Bool :=
  match i with
  | .mix _ => busy
  | .xmix _ => busy
  | .bmix => busy
  | .romix => busy
  | .seqFill => false
  | .seqMixp => false
  | .seqMix => false
  | .seqXmix => false
  | .seqBmix => false
  | .rdX _ => busy
  | .rdNcost => busy
  | .rdCmd => busy
  | .rdStatus => false
  | .rdCtr => false
  | .rdJidx => busy
  | .rdId => false
  | .rdUnmapped98 _ => true
  | .rdUnmappedA0 _ => true
  | .rdUnmappedC0 _ => true
  | .wrX _ _ => busy
  | .wrNcost _ => busy
  | .wrCmd _ => busy
  | .wrStatus _ => false
  | .wrCtr _ => true
  | .wrJidx _ => true
  | .wrId _ => true
  | .wrUnmapped98 _ _ => true
  | .wrUnmappedA0 _ _ => true
  | .wrUnmappedC0 _ _ => true

/-- The engine steps (R99). -/
def isEngineStep (i : Instr) : Bool :=
  match i with
  | .mix _ => false
  | .xmix _ => false
  | .bmix => false
  | .romix => false
  | .seqFill => true
  | .seqMixp => true
  | .seqMix => true
  | .seqXmix => true
  | .seqBmix => true
  | .rdX _ => false
  | .rdNcost => false
  | .rdCmd => false
  | .rdStatus => false
  | .rdCtr => false
  | .rdJidx => false
  | .rdId => false
  | .rdUnmapped98 _ => false
  | .rdUnmappedA0 _ => false
  | .rdUnmappedC0 _ => false
  | .wrX _ _ => false
  | .wrNcost _ => false
  | .wrCmd _ => false
  | .wrStatus _ => false
  | .wrCtr _ => false
  | .wrJidx _ => false
  | .wrId _ => false
  | .wrUnmapped98 _ _ => false
  | .wrUnmappedA0 _ _ => false
  | .wrUnmappedC0 _ _ => false

/-- The instructions that present a command word to `CMD` (R101, R168). -/
def presentsCommand (i : Instr) : Bool :=
  match i with
  | .mix _ => true
  | .xmix _ => true
  | .bmix => true
  | .romix => true
  | .wrCmd _ => true
  | .seqFill => false
  | .seqMixp => false
  | .seqMix => false
  | .seqXmix => false
  | .seqBmix => false
  | .rdX _ => false
  | .rdNcost => false
  | .rdCmd => false
  | .rdStatus => false
  | .rdCtr => false
  | .rdJidx => false
  | .rdId => false
  | .rdUnmapped98 _ => false
  | .rdUnmappedA0 _ => false
  | .rdUnmappedC0 _ => false
  | .wrX _ _ => false
  | .wrNcost _ => false
  | .wrStatus _ => false
  | .wrCtr _ => false
  | .wrJidx _ => false
  | .wrId _ => false
  | .wrUnmapped98 _ _ => false
  | .wrUnmappedA0 _ _ => false
  | .wrUnmappedC0 _ _ => false

/-- The host has not misbehaved since the flag was last clear (R35, R186). -/
def State.hostClean (s : State) : Prop := s.hosterr = false

/-- The step neither faults nor refuses. -/
def goesOn (o : Host.Outcome State Fault Refusal) : Prop := ∃ t, o = .next t

end Sys2Proof.Machine
end

