-- ==== Sys2Proof/Certificates/Slice0/Obligations.lean ====
section
/-!
DEFINITION. The statements for the provers. Each docstring names the rules of spec/ it formalises; OBLIGATIONS.json lists
them. Where a statement needs a fact that only reachable states have, it takes `State.Inv` as a premise, which
`UnitInvariantHoldsAtReset` and `StepKeepsUnitInvariant` state. An equation of whole states also says that the fields the
model adds, `cfg`, `rdata` and `script`, are as it shows them: that is the model's choice (logs 1, 3, 4), no rule's.
-/

open Sys2Proof Sys2Proof.Machine

/-! ## The datapath -/

/-- R111: bit `(i + r) mod 32` of the rotation is bit `i`, its shift formula, its examples, and that the tables of R113
and R114 use only the amounts 7, 9, 13, 18. -/
def Obligations.RotateLeftMovesEachBit : Prop :=
  (∀ (v : Word) (r i : Nat), 1 ≤ r → r ≤ 31 → i < 32 → (rotl32 v r).getLsbD ((i + r) % 32) = v.getLsbD i) ∧
    (∀ (v : Word) (r : Nat), 1 ≤ r → r ≤ 31 →
      (rotl32 v r).toNat = (v.toNat * 2 ^ r % 2 ^ 32) ||| (v.toNat / 2 ^ (32 - r))) ∧
    (∀ u ∈ columnRound ++ rowRound, u.2.2.2 ∈ [7, 9, 13, 18]) ∧
    rotl32 0x80000001 7 = 0x000000C0 ∧ rotl32 0x00000001 18 = 0x00040000 ∧
    rotl32 0x12345678 9 = 0x68ACF024 ∧ rotl32 0xFFFFFFFF 13 = 0xFFFFFFFF

/-- R112: an update xors the rotated sum of two words into word `t` and keeps every other word. -/
def Obligations.UpdateWritesItsTargetOnly : Prop :=
  ∀ (x : Half) (t a b : Fin 16) (r : Nat),
    (update x t a b r)[t.val] = x[t.val] ^^^ rotl32 (x[a.val] + x[b.val]) r ∧
      ∀ k : Fin 16, k ≠ t → (update x t a b r)[k.val] = x[k.val]

/-- R115: the four updates on one line of a round's table may be performed in any order. -/
def Obligations.TableLinesMayBeReordered : Prop :=
  ∀ table ∈ [columnRound, rowRound], ∀ line : Fin 4, ∀ order : List (Fin 16 × Fin 16 × Fin 16 × Nat),
    order.Perm ((table.drop (4 * line.val)).take 4) →
      ∀ x : Half, applyRound order x = applyRound ((table.drop (4 * line.val)).take 4) x

/-- R116: Salsa20/8 is a permutation of the 16-word vectors. -/
def Obligations.SalsaPermutesHalves : Prop := Function.Bijective salsa20_8

/-- R117: MixCore adds the original input, word by word modulo 2^32, to the permuted copy. -/
def Obligations.MixCoreAddsItsInput : Prop :=
  ∀ (a : Half) (k : Fin 16), (mixCore a)[k.val] = a[k.val] + (salsa20_8 a)[k.val]

/-- R119 (a), (b): a half of zeros, and a half of words 0x80000000, both give a half of zeros. -/
def Obligations.MixCoreOfConstantHalves : Prop :=
  ∀ a : Half, ((∀ k : Fin 16, a[k.val] = 0) ∨ (∀ k : Fin 16, a[k.val] = 0x80000000)) →
    ∀ k : Fin 16, (mixCore a)[k.val] = 0

/-- R130, R131: the first half is mixed with the old second half, then the second with the new first half;
the halves are words 0 to 15 and 16 to 31. -/
def Obligations.BlockMixUsesTheNewFirstHalf : Prop :=
  (∀ (a b : Half) (k : Fin 16), (xor16 a b)[k.val] = a[k.val] ^^^ b[k.val]) ∧
    (∀ (h : Fin 2) (b : Block) (k : Fin 16), (getHalf h b)[k.val] = b[16 * h.val + k.val]'(by omega)) ∧
    ∀ b : Block,
      getHalf 0 (blockMix b) = mixCore (xor16 (getHalf 0 b) (getHalf 1 b)) ∧
        getHalf 1 (blockMix b) = mixCore (xor16 (getHalf 1 b) (getHalf 0 (blockMix b)))

/-- R62: the little-endian maps between 128 bytes and 32 words, and that they are inverse bijections. -/
def Obligations.BlockBytesAreLittleEndian : Prop :=
  (∀ (b : Bytes128) (k : Fin 32),
      (decodeBytes b)[k.val].toNat =
        (b[4 * k.val]'(by omega)).toNat + 2 ^ 8 * (b[4 * k.val + 1]'(by omega)).toNat +
          2 ^ 16 * (b[4 * k.val + 2]'(by omega)).toNat + 2 ^ 24 * (b[4 * k.val + 3]'(by omega)).toNat) ∧
    (∀ (x : Block) (k : Fin 32) (m : Fin 4),
      ((encodeBlock x)[4 * k.val + m.val]'(by omega)).toNat = (x[k.val].toNat >>> (8 * m.val)) &&& 0xFF) ∧
    (∀ x : Block, decodeBytes (encodeBlock x) = x) ∧ ∀ b : Bytes128, encodeBlock (decodeBytes b) = b

/-- R145: for a power of two `N`, the index is the index word modulo `N`, hence below `N`. -/
def Obligations.MixIndexIsBelowTheCost : Prop :=
  ∀ (idxWord : Fin 32) (b : Block) (n : Word) (e : Nat), n.toNat = 2 ^ e →
    (index idxWord b n).toNat = b[idxWord.val].toNat % 2 ^ e ∧ (index idxWord b n).toNat < n.toNat

/-- R142's corner case: ROMix leaves the zero block zero, whatever the cost and the index word. -/
def Obligations.RomixOfTheZeroBlockIsZero : Prop :=
  ∀ (idxWord : Fin 32) (n : Word), roMix idxWord (Vector.replicate 32 0) n = Vector.replicate 32 0

/-! ## Encodings -/

/-- R90 to R99: decoding the encoding of a well-formed instruction gives it back. -/
def Obligations.DecodeInvertsEncode : Prop := ∀ i : Instr, i.wellFormed = true → decode (encode i) = .ok i

/-- R91: the BUS rows partition the selectors. Every access decodes to a well-formed instruction whose row matches its
selector, and no other row of width 7 does; encoding it gives the selector back, and the data of a write. That the encoder
puts data 0 with a read is the model's choice (log 14), no rule's. -/
def Obligations.BusRowsPartitionTheSelectors : Prop :=
  ∀ (sel : BitVec 7) (wdata : Word),
    (decodeBus sel wdata).wellFormed = true ∧ (decodeBus sel wdata).row.width = 7 ∧
      (decodeBus sel wdata).row.hits sel.toNat = true ∧
      (∀ i : Instr, i.row.width = 7 → i.row.hits sel.toNat = true → i.row = (decodeBus sel wdata).row) ∧
      encode (decodeBus sel wdata) = .bus sel (if sel.getLsbD 6 then wdata else 0)

/-- Words written out from R92, R99, R70 decode to the instructions they stand for. -/
def Obligations.DecodesTheSpecsWords : Prop :=
  decode (.c 0x00000001) = .ok (.mix 0) ∧ decode (.c 0x00000101) = .ok (.mix 1) ∧
    decode (.c 0x00000102) = .ok (.xmix 1) ∧ decode (.c 0x00000003) = .ok .bmix ∧ decode (.c 0x00000004) = .ok .romix ∧
    decode (.seq 0x104) = .ok .seqFill ∧ decode (.seq 0x204) = .ok .seqMixp ∧ decode (.seq 0x302) = .ok .seqXmix ∧
    decode (.bus 0x05 0) = .ok (.rdX 5) ∧ decode (.bus 0x22 0) = .ok .rdStatus ∧
    decode (.bus 0x60 4) = .ok (.wrNcost 4) ∧ decode (.bus 0x7F 0) = .ok (.wrUnmappedC0 0x3F 0)

/-- R183, R96, R92: a write to `CMD` while IDLE of a word with OPC not 1 to 4, or a reserved bit set, or H set with `BMIX`
or `ROMIX`, is rejected with InvalidCommand. These words are all but six, and the six decode to the commands. -/
def Obligations.IllegalWordsRaiseInvalidCommand : Prop :=
  (∀ (w : Word) (s : State), s.phase = .idle →
      ((w.extractLsb' 0 8 ≠ 1 ∧ w.extractLsb' 0 8 ≠ 2 ∧ w.extractLsb' 0 8 ≠ 3 ∧ w.extractLsb' 0 8 ≠ 4) ∨
          w.extractLsb' 9 23 ≠ 0 ∨
          ((w.extractLsb' 0 8 = 3 ∨ w.extractLsb' 0 8 = 4) ∧ w.getLsbD 8 = true)) →
        exec (.wrCmd w) s = .next { s with err := .invalidCommand, done := true }) ∧
    (∀ (w : Word) (s : State), s.phase = .idle →
      w ∉ [0x00000001, 0x00000101, 0x00000002, 0x00000102, 0x00000003, 0x00000004] →
        exec (.wrCmd w) s = .next { s with err := .invalidCommand, done := true }) ∧
    ∀ (w : Word) (i : Instr), decode (.c w) = .ok i ↔
      (w = 0x00000001 ∧ i = .mix 0) ∨ (w = 0x00000101 ∧ i = .mix 1) ∨ (w = 0x00000002 ∧ i = .xmix 0) ∨
        (w = 0x00000102 ∧ i = .xmix 1) ∨ (w = 0x00000003 ∧ i = .bmix) ∨ (w = 0x00000004 ∧ i = .romix)

/-- A step runs the decoded instruction. The host's access runs as its BUS encoding decodes, a write to `CMD` of a legal
word runs as the command, the engine's turn (its own, or the empty script's, log 2) runs the step its selector decodes to,
each with the turn gone from the script and nothing else changed. -/
def Obligations.StepRunsTheDecodedInstruction : Prop :=
  (∀ (s : State) (we : Bool) (idx : BitVec 6) (wdata : Word) (rest : List Turn) (i : Instr),
      s.script = .access we idx wdata :: rest → decode (.bus (BitVec.ofBool we ++ idx) wdata) = .ok i →
        step s = exec i { s with script := rest }) ∧
    (∀ (s : State) (w : Word) (rest : List Turn) (i : Instr),
      s.script = .access true 0x21 w :: rest → decode (.c w) = .ok i → step s = exec i { s with script := rest }) ∧
    (∀ (s : State) (rest : List Turn) (i : Instr),
      s.script = .engine :: rest → decode (.seq s.selector) = .ok i → step s = exec i { s with script := rest }) ∧
    ∀ (s : State) (i : Instr), s.script = [] → decode (.seq s.selector) = .ok i → step s = exec i s

/-- The model's choice, logs 11 and 12 (the widths 32, 8, 40 and 16): a table word placed with `withFetchWord` is what the
next step runs. A command word, a bus selector and a bus selector with its write data run in the state they were placed in;
an engine selector in that state with PHASE and CMDL[7:0] as the selector says and, for `SEQ.MIXP` alone, zeros at the block
it is about to read if that block is not wholly written. -/
def Obligations.PlacedWordsRunNext : Prop :=
  (∀ (s : State) (w : Nat) (i : Instr), decodeTableWord 32 w = some i → step (s.withFetchWord 32 w) = exec i s) ∧
    (∀ (s : State) (w : Nat) (i : Instr), decodeTableWord 8 w = some i → step (s.withFetchWord 8 w) = exec i s) ∧
    (∀ (s : State) (w : Nat) (i : Instr), decodeTableWord 40 w = some i → step (s.withFetchWord 40 w) = exec i s) ∧
    ∀ (s : State) (w : Nat) (i : Instr), decodeTableWord 16 w = some i →
      ∃ t, step (s.withFetchWord 16 w) = exec i t ∧ t.selector = BitVec.ofNat 10 w ∧
        t.cmdl.extractLsb' 8 24 = s.cmdl.extractLsb' 8 24 ∧
        t = { s with phase := t.phase, cmdl := t.cmdl, v := t.v } ∧
        (i ≠ .seqMixp → t.v = s.v) ∧
        (i = .seqMixp → t.v =
          match memRead s.v (blockAddr (index s.cfg.idxWord s.x s.ncost).toNat) with
          | some _ => s.v
          | none => memWrite s.v (blockAddr (index s.cfg.idxWord s.x s.ncost).toNat) (Vector.replicate 128 0))

/-! ## Commands: acceptance and rejection -/

/-- R97, R98, R184, R185: the outcome of a write to `CMD` while IDLE, with the checks in their order. The first that
fails gives the code in ERR, sets DONE and changes nothing else; if all pass the command is latched and its first engine
step enabled. -/
def Obligations.CommandWriteChecksInOrder : Prop :=
  ∀ (w : Word) (s : State), s.phase = .idle →
    exec (.wrCmd w) s = .next (
      if (w.extractLsb' 0 8 ≠ 1 ∧ w.extractLsb' 0 8 ≠ 2 ∧ w.extractLsb' 0 8 ≠ 3 ∧ w.extractLsb' 0 8 ≠ 4) ∨
          w.extractLsb' 9 23 ≠ 0 ∨
          ((w.extractLsb' 0 8 = 3 ∨ w.extractLsb' 0 8 = 4) ∧ w.getLsbD 8 = true) then
        { s with err := .invalidCommand, done := true }
      else if w.extractLsb' 0 8 = 4 ∧ (s.ncost.toNat < 2 ∨ s.ncost &&& (s.ncost - 1) ≠ 0) then
        { s with err := .invalidParameter, done := true }
      else if w.extractLsb' 0 8 = 4 ∧ 2 ^ s.cfg.log2NMax < s.ncost.toNat then
        { s with err := .allocationFailure, done := true }
      else
        { s with
          cmdl := w
          err := .none
          done := false
          ctr := 0
          phase := if w.extractLsb' 0 8 = 4 then .fill else .single })

/-- R101: a command mnemonic is the write of its word to `CMD`. -/
def Obligations.MnemonicsAreWritesToCmd : Prop :=
  ∀ s : State,
    exec (.mix 0) s = exec (.wrCmd 0x00000001) s ∧ exec (.mix 1) s = exec (.wrCmd 0x00000101) s ∧
      exec (.xmix 0) s = exec (.wrCmd 0x00000002) s ∧ exec (.xmix 1) s = exec (.wrCmd 0x00000102) s ∧
      exec .bmix s = exec (.wrCmd 0x00000003) s ∧ exec .romix s = exec (.wrCmd 0x00000004) s

/-- R98 for each command: while IDLE, `MIX h`, `XMIX h` and `BMIX` are accepted whatever `NCOST` holds, and `ROMIX` for
every cost 2^e with 1 ≤ e ≤ LOG2_NMAX. -/
def Obligations.CommandsAreAccepted : Prop :=
  ∀ s : State, s.phase = .idle →
    (∀ h : Fin 2, exec (.mix h) s = .next { s with
        cmdl := BitVec.ofNat 32 (1 + 256 * h.val), err := .none, done := false, ctr := 0, phase := .single }) ∧
      (∀ h : Fin 2, exec (.xmix h) s = .next { s with
        cmdl := BitVec.ofNat 32 (2 + 256 * h.val), err := .none, done := false, ctr := 0, phase := .single }) ∧
      exec .bmix s = .next { s with cmdl := 3, err := .none, done := false, ctr := 0, phase := .single } ∧
      ∀ e : Nat, 1 ≤ e → e ≤ s.cfg.log2NMax → s.ncost.toNat = 2 ^ e →
        exec .romix s = .next { s with cmdl := 4, err := .none, done := false, ctr := 0, phase := .fill }

/-- R181, R182: while IDLE, `ROMIX` with a cost that is no power of two, or 1, is rejected with InvalidParameter; with a
power of two above N_MAX, with AllocationFailure; nothing but ERR and DONE changes. And AllocationFailure arises in no
other way. -/
def Obligations.IllegalCostsAreRejected : Prop :=
  ∀ s : State, s.phase = .idle →
    ((¬ ∃ e : Nat, 1 ≤ e ∧ s.ncost.toNat = 2 ^ e) →
        exec .romix s = .next { s with err := .invalidParameter, done := true }) ∧
      (∀ e : Nat, 1 ≤ e → s.ncost.toNat = 2 ^ e → s.cfg.log2NMax < e →
        exec .romix s = .next { s with err := .allocationFailure, done := true }) ∧
      ∀ (i : Instr) (t : State), exec i s = .next t → t.err = .allocationFailure → s.err ≠ .allocationFailure →
        (i = .romix ∨ i = .wrCmd 4) ∧ ∃ e : Nat, 1 ≤ e ∧ s.ncost.toNat = 2 ^ e ∧ s.cfg.log2NMax < e

/-- R13, R30, R97: the costs an idle `ROMIX` accepts are exactly the powers 2^e with 1 ≤ e ≤ LOG2_NMAX. These are the
costs for which `legalCost` holds. -/
def Obligations.LegalCostsAreThePowersOfTwo : Prop :=
  (∀ (c : Config) (n : Word), legalCost c n = true ↔ ∃ e : Nat, 1 ≤ e ∧ e ≤ c.log2NMax ∧ n.toNat = 2 ^ e) ∧
    ∀ s : State, s.phase = .idle →
      ∃ t, exec .romix s = .next t ∧
        (t.err = .none ↔ ∃ e : Nat, 1 ≤ e ∧ e ≤ s.cfg.log2NMax ∧ s.ncost.toNat = 2 ^ e) ∧
        (t.phase = .fill ↔ legalCost s.cfg s.ncost = true)

/-- R118, R132, R133: each single command, accepted while IDLE and given its one engine step, has its whole effect. The
script is empty, so the next step is the engine's (log 2). -/
def Obligations.SingleCommandsRunToCompletion : Prop :=
  ∀ s : State, s.phase = .idle → s.script = [] →
    (∀ h : Fin 2, ∃ a, exec (.mix h) s = .next a ∧ step a = .next { s with
        x := setHalf h (mixCore (getHalf h s.x)) s.x,
        cmdl := BitVec.ofNat 32 (1 + 256 * h.val), err := .none, done := true, ctr := 0 }) ∧
      (∀ h : Fin 2, ∃ a, exec (.xmix h) s = .next a ∧ step a = .next { s with
        x := setHalf h (mixCore (xor16 (getHalf h s.x) (getHalf (otherHalf h) s.x))) s.x,
        cmdl := BitVec.ofNat 32 (2 + 256 * h.val), err := .none, done := true, ctr := 0 }) ∧
      ∃ a, exec .bmix s = .next a ∧ step a = .next { s with
        x := blockMix s.x, cmdl := 3, err := .none, done := true, ctr := 0 }

/-- R134: `BMIX` ends in the state `XMIX 0` then `XMIX 1` end in, but for the word in CMDL. -/
def Obligations.BmixEqualsTwoXmix : Prop :=
  ∀ s : State, s.phase = .idle →
    ∃ a b c d e f, exec (.xmix 0) s = .next a ∧ exec .seqXmix a = .next b ∧ exec (.xmix 1) b = .next c ∧
      exec .seqXmix c = .next d ∧ exec .bmix s = .next e ∧ exec .seqBmix e = .next f ∧ f = { d with cmdl := 3 }

/-- R118's corner case: `MIX 0` then `MIX 1` leaves in X what `MIX 1` then `MIX 0` leaves. -/
def Obligations.MixHalvesCommute : Prop :=
  ∀ s : State, s.phase = .idle →
    ∃ a b c d a' b' c' d', exec (.mix 0) s = .next a ∧ exec .seqMix a = .next b ∧ exec (.mix 1) b = .next c ∧
      exec .seqMix c = .next d ∧ exec (.mix 1) s = .next a' ∧ exec .seqMix a' = .next b' ∧
      exec (.mix 0) b' = .next c' ∧ exec .seqMix c' = .next d' ∧ d'.x = d.x

/-- R132's corner cases: with equal halves `XMIX h` zeroes half `h`; with the other half zero it does what `MIX h` does. -/
def Obligations.XmixOfEqualAndZeroHalves : Prop :=
  ∀ (h : Fin 2) (s : State), s.phase = .idle →
    ∃ a t b u, exec (.xmix h) s = .next a ∧ exec .seqXmix a = .next t ∧ exec (.mix h) s = .next b ∧
      exec .seqMix b = .next u ∧
      (getHalf h s.x = getHalf (otherHalf h) s.x → getHalf h t.x = Vector.replicate 16 0) ∧
      (getHalf (otherHalf h) s.x = Vector.replicate 16 0 → t.x = u.x)

/-! ## Engine steps -/

/-- R118: `SEQ.MIX` writes MixCore of half `h = CMDL[8]` to it, goes to (IDLE, 0), sets DONE and changes nothing else. -/
def Obligations.SeqMixEffect : Prop :=
  ∀ (s : State) (h : Fin 2), s.phase = .single → s.cmdl.extractLsb' 0 8 = 1 →
    (s.cmdl.extractLsb' 8 1).toNat = h.val →
      ∃ t, exec .seqMix s = .next t ∧
        (∀ k : Fin 16, t.x[16 * h.val + k.val]'(by omega) = (mixCore (getHalf h s.x))[k.val]) ∧
        (∀ k : Fin 16, t.x[16 * (1 - h.val) + k.val]'(by omega) = s.x[16 * (1 - h.val) + k.val]'(by omega)) ∧
        t = { s with x := t.x, phase := .idle, ctr := 0, done := true }

/-- R132: `SEQ.XMIX` writes MixCore of the xor of both halves to half `h = CMDL[8]`, keeps the other half, goes to
(IDLE, 0), sets DONE and changes nothing else. -/
def Obligations.SeqXmixEffect : Prop :=
  ∀ (s : State) (h : Fin 2), s.phase = .single → s.cmdl.extractLsb' 0 8 = 2 →
    (s.cmdl.extractLsb' 8 1).toNat = h.val →
      ∃ t, exec .seqXmix s = .next t ∧
        (∀ k : Fin 16, t.x[16 * h.val + k.val]'(by omega) =
          (mixCore (xor16 (getHalf h s.x) (getHalf (otherHalf h) s.x)))[k.val]) ∧
        (∀ k : Fin 16, t.x[16 * (1 - h.val) + k.val]'(by omega) = s.x[16 * (1 - h.val) + k.val]'(by omega)) ∧
        t = { s with x := t.x, phase := .idle, ctr := 0, done := true }

/-- R133: `SEQ.BMIX` replaces X by BlockMix of it, goes to (IDLE, 0), sets DONE and changes nothing else. -/
def Obligations.SeqBmixEffect : Prop :=
  ∀ s : State, s.phase = .single → s.cmdl.extractLsb' 0 8 = 3 →
    exec .seqBmix s = .next { s with x := blockMix s.x, phase := .idle, ctr := 0, done := true }

/-- R143: `SEQ.FILL` stores the block held before the mix, little-endian, in the 128 bytes at `128 * CTR`, and
every other byte of the scratch space keeps its value; then X is mixed and `pc` goes on. The byte order inside the stored
block, R65's and R67's, cannot be observed (N10) and rests on log 16. -/
def Obligations.SeqFillEffect : Prop :=
  ∀ s : State, s.phase = .fill → s.cmdl.extractLsb' 0 8 = 4 → s.ctr.toNat < 2 ^ s.cfg.log2NMax →
    ∃ t, exec .seqFill s = .next t ∧
      (∀ n : Fin 128, readByte t.v (blockAddr s.ctr.toNat + n.val) = some (encodeBlock s.x)[n.val]) ∧
      (∀ a : Nat, (a < blockAddr s.ctr.toNat ∨ blockAddr s.ctr.toNat + 128 ≤ a) → readByte t.v a = readByte s.v a) ∧
      t = { s with
        v := t.v
        x := blockMix s.x
        phase := if s.ctr.toNat + 1 = s.ncost.toNat then .mixp else .fill
        ctr := if s.ctr.toNat + 1 = s.ncost.toNat then 0 else s.ctr + 1 }

/-- R144, R64: `SEQ.MIXP` reads the block that X's index word names, xors it into X, mixes, writes JIDX, goes on, and on
the last iteration goes to (IDLE, 0) and sets DONE; nothing else changes, no byte of the scratch space either. R140: the
xor is word by word. -/
def Obligations.SeqMixpEffect : Prop :=
  (∀ (a b : Block) (k : Fin 32), (xor32v a b)[k.val] = a[k.val] ^^^ b[k.val]) ∧
  ∀ (s : State) (bytes : Bytes128), s.phase = .mixp → s.cmdl.extractLsb' 0 8 = 4 →
    (s.x[s.cfg.idxWord.val] &&& (s.ncost - 1)).toNat < 2 ^ s.cfg.log2NMax →
    (∀ n : Fin 128,
      readByte s.v (blockAddr (s.x[s.cfg.idxWord.val] &&& (s.ncost - 1)).toNat + n.val) = some bytes[n.val]) →
      exec .seqMixp s = .next { s with
        jidx := s.x[s.cfg.idxWord.val] &&& (s.ncost - 1)
        x := blockMix (xor32v s.x (decodeBytes bytes))
        phase := if s.ctr.toNat + 1 = s.ncost.toNat then .idle else .mixp
        ctr := if s.ctr.toNat + 1 = s.ncost.toNat then 0 else s.ctr + 1
        done := if s.ctr.toNat + 1 = s.ncost.toNat then true else s.done }

/-- R99, U15: an engine step in a state whose selector does not enable it is refused (log 8), and so is the engine's turn
on a selector that enables none; an idle engine's turn stops as noStep (log 2). U9, R64, R65: a scratch block outside the
space, or not wholly written, is a fault (logs 5, 9). -/
def Obligations.EngineStepsStopByName : Prop :=
  ∀ s : State,
    (s.selector ≠ 0x104 → exec .seqFill s = .refused .stepNotEnabled) ∧
      (s.selector ≠ 0x204 → exec .seqMixp s = .refused .stepNotEnabled) ∧
      (s.selector ≠ 0x301 → exec .seqMix s = .refused .stepNotEnabled) ∧
      (s.selector ≠ 0x302 → exec .seqXmix s = .refused .stepNotEnabled) ∧
      (s.selector ≠ 0x303 → exec .seqBmix s = .refused .stepNotEnabled) ∧
      (s.selector = 0x104 → 2 ^ s.cfg.log2NMax ≤ s.ctr.toNat → exec .seqFill s = .fault .scratchOutOfRange) ∧
      (s.selector = 0x204 → 2 ^ s.cfg.log2NMax ≤ (index s.cfg.idxWord s.x s.ncost).toNat →
        exec .seqMixp s = .fault .scratchOutOfRange) ∧
      (s.selector = 0x204 → (index s.cfg.idxWord s.x s.ncost).toNat < 2 ^ s.cfg.log2NMax →
        (∃ n : Fin 128, readByte s.v (blockAddr (index s.cfg.idxWord s.x s.ncost).toNat + n.val) = none) →
        exec .seqMixp s = .fault .scratchUnwritten) ∧
      ((s.script = [] ∨ ∃ rest, s.script = .engine :: rest) →
        (s.phase = .idle → step s = .refused .noStep) ∧
          (s.phase ≠ .idle → s.selector ∉ [0x104#10, 0x204#10, 0x301#10, 0x302#10, 0x303#10] →
            step s = .refused .stepNotEnabled))

/-! ## Host accesses -/

/-- R161: STATUS, CTR and ID are read at any time and nothing else changes; R173's read data carries the value. -/
def Obligations.StatusCtrIdAreReadAtAnyTime : Prop :=
  ∀ s : State,
    exec .rdStatus s = .next { s with
        rdata := 0#23 ++ BitVec.ofBool s.hosterr ++ s.err.toBits ++ s.phase.toBits ++ BitVec.ofBool s.done ++
          BitVec.ofBool (decide (s.phase ≠ .idle)) } ∧
      exec .rdCtr s = .next { s with rdata := s.ctr } ∧
      exec .rdId s = .next { s with
        rdata := 0x00#8 ++ 0x01#8 ++ BitVec.ofNat 8 s.cfg.idxWord.val ++ BitVec.ofNat 8 s.cfg.log2NMax }

/-- R32, R26, R34: what `RD STATUS` returns, bit by bit, with the codes of PHASE and ERR. -/
def Obligations.StatusFieldsStandInTheirBits : Prop :=
  ∀ s : State, ∃ t, exec .rdStatus s = .next t ∧
    t.rdata.getLsbD 0 = decide (s.phase ≠ .idle) ∧ t.rdata.getLsbD 1 = s.done ∧
      (t.rdata.extractLsb' 2 2).toNat =
        (match s.phase with | .idle => 0 | .fill => 1 | .mixp => 2 | .single => 3) ∧
      (t.rdata.extractLsb' 4 4).toNat =
        (match s.err with | .none => 0 | .invalidParameter => 1 | .allocationFailure => 2 | .invalidCommand => 3) ∧
      t.rdata.getLsbD 8 = s.hosterr ∧ t.rdata.extractLsb' 9 23 = 0

/-- R162: while IDLE the gated registers are read and nothing else changes. -/
def Obligations.IdleReadsReturnTheRegister : Prop :=
  ∀ s : State, s.phase = .idle →
    (∀ k : Fin 32, exec (.rdX k) s = .next { s with rdata := s.x[k.val] }) ∧
      exec .rdNcost s = .next { s with rdata := s.ncost } ∧ exec .rdCmd s = .next { s with rdata := s.cmdl } ∧
      exec .rdJidx s = .next { s with rdata := s.jidx }

/-- R163: while BUSY the same reads return 0 and set HOSTERR; nothing else changes. -/
def Obligations.BusyReadsAreRefused : Prop :=
  ∀ s : State, s.phase ≠ .idle →
    (∀ k : Fin 32, exec (.rdX k) s = .next { s with rdata := 0, hosterr := true }) ∧
      exec .rdNcost s = .next { s with rdata := 0, hosterr := true } ∧
      exec .rdCmd s = .next { s with rdata := 0, hosterr := true } ∧
      exec .rdJidx s = .next { s with rdata := 0, hosterr := true }

/-- R167: while IDLE a write to `X[k]` or `NCOST` stores the value and changes nothing else. -/
def Obligations.IdleWritesStoreTheValue : Prop :=
  ∀ s : State, s.phase = .idle → ∀ v : Word,
    (∀ k : Fin 32, ∃ t, exec (.wrX k v) s = .next t ∧ t.x[k.val] = v ∧
        (∀ m : Fin 32, m ≠ k → t.x[m.val] = s.x[m.val]) ∧ t = { s with x := t.x }) ∧
      exec (.wrNcost v) s = .next { s with ncost := v }

/-- R169, R101: while BUSY a write to `X[k]`, `NCOST` or `CMD`, and so every command, sets HOSTERR and does nothing
else. -/
def Obligations.BusyWritesAreRefused : Prop :=
  ∀ s : State, s.phase ≠ .idle → ∀ (v : Word) (k : Fin 32) (h : Fin 2),
    exec (.wrX k v) s = .next { s with hosterr := true } ∧ exec (.wrNcost v) s = .next { s with hosterr := true } ∧
      exec (.wrCmd v) s = .next { s with hosterr := true } ∧ exec (.mix h) s = .next { s with hosterr := true } ∧
      exec (.xmix h) s = .next { s with hosterr := true } ∧ exec .bmix s = .next { s with hosterr := true } ∧
      exec .romix s = .next { s with hosterr := true }

/-- R170: a write to STATUS clears HOSTERR when its bit 8 is set and does nothing else, at any time. -/
def Obligations.StatusWriteClearsHosterrOnly : Prop :=
  ∀ (v : Word) (s : State),
    exec (.wrStatus v) s = .next { s with hosterr := if v.getLsbD 8 = true then false else s.hosterr }

/-- R171: writes to CTR, JIDX, ID and to unmapped addresses set HOSTERR and do nothing else, at any time. -/
def Obligations.ReadOnlyWritesAreRefused : Prop :=
  ∀ (v : Word) (a : BitVec 6) (s : State),
    exec (.wrCtr v) s = .next { s with hosterr := true } ∧ exec (.wrJidx v) s = .next { s with hosterr := true } ∧
      exec (.wrId v) s = .next { s with hosterr := true } ∧
      exec (.wrUnmapped98 a v) s = .next { s with hosterr := true } ∧
      exec (.wrUnmappedA0 a v) s = .next { s with hosterr := true } ∧
      exec (.wrUnmappedC0 a v) s = .next { s with hosterr := true }

/-- R72, R164: an access to a word index 0x26 to 0x3F, in any state, sets HOSTERR and does nothing else, and a read
returns 0; said of a step, so of every unmapped index the bus can carry. -/
def Obligations.UnmappedAccessesAreRefused : Prop :=
  (∀ (a : BitVec 6) (s : State),
      exec (.rdUnmapped98 a) s = .next { s with rdata := 0, hosterr := true } ∧
        exec (.rdUnmappedA0 a) s = .next { s with rdata := 0, hosterr := true } ∧
        exec (.rdUnmappedC0 a) s = .next { s with rdata := 0, hosterr := true }) ∧
    ∀ (s : State) (a : BitVec 6) (wdata : Word) (rest : List Turn), 0x26 ≤ a.toNat →
      (s.script = .access false a wdata :: rest →
          step s = .next { s with rdata := 0, hosterr := true, script := rest }) ∧
        (s.script = .access true a wdata :: rest → step s = .next { s with hosterr := true, script := rest })

/-! ## Frames and whole-machine rules -/

/-- R61, R64, R65, R68: no instruction but `SEQ.FILL` changes a byte of the scratch space. -/
def Obligations.OnlyFillChangesTheScratch : Prop :=
  ∀ (i : Instr) (s t : State), exec i s = .next t → i ≠ .seqFill →
    (∀ a : Nat, readByte t.v a = readByte s.v a) ∧ t.v = s.v

/-- R65: `V[i] <- B` replaces the 128 bytes of block `i` by B's, changes no other byte, and a later `V[i]` is B; only FILL
steps perform it. Outside the scratch space R65 defines no write, and that the model faults there is log 9. The byte order
inside a block cannot be observed (N10) and rests on log 16. -/
def Obligations.ScratchReturnsTheBlockWritten : Prop :=
  (∀ (s : State) (i : Nat) (b : Block), i < s.cfg.nMax →
      ∃ t, scratchWrite s i b = .ok t ∧ scratchRead t i = .ok b ∧ t = { s with v := t.v } ∧
        (∀ n : Fin 128, readByte t.v (128 * i + n.val) = some (encodeBlock b)[n.val]) ∧
        (∀ a : Nat, (a < 128 * i ∨ 128 * i + 128 ≤ a) → readByte t.v a = readByte s.v a) ∧
        ∀ j : Nat, j ≠ i → scratchRead t j = scratchRead s j) ∧
    (∀ (s : State) (i : Nat) (b : Block), s.cfg.nMax ≤ i → scratchWrite s i b = .error .scratchOutOfRange) ∧
    ∀ (i : Instr) (s t : State), exec i s = .next t → t.v ≠ s.v → i = .seqFill

/-- R24, R30, R31, R33, R34, R36, R98, R184 and R21: which instructions may change each register and
flag. The last line is the model's choice: that engine steps keep the read data is log 4 (R173 gives the wire no value
there), that no instruction changes `cfg` and `script` is logs 3 and 1. -/
def Obligations.EachRegisterHasItsWriters : Prop :=
  ∀ (i : Instr) (s t : State), exec i s = .next t →
    (t.x ≠ s.x → isEngineStep i = true ∨ ∃ k v, i = .wrX k v) ∧
      (t.ncost ≠ s.ncost → ∃ v, i = .wrNcost v) ∧
      (t.cmdl ≠ s.cmdl → presentsCommand i = true ∧ s.phase = .idle) ∧
      (t.jidx ≠ s.jidx → i = .seqMixp) ∧
      (t.err ≠ s.err → presentsCommand i = true ∧ s.phase = .idle) ∧
      (t.done ≠ s.done → (presentsCommand i = true ∧ s.phase = .idle) ∨ isEngineStep i = true) ∧
      (t.phase ≠ s.phase ∨ t.ctr ≠ s.ctr → (presentsCommand i = true ∧ s.phase = .idle) ∨ isEngineStep i = true) ∧
      (isEngineStep i = true → t.rdata = s.rdata) ∧ t.cfg = s.cfg ∧ t.script = s.script

/-- R35, R186, R172: HOSTERR is set by exactly the accesses the unit refuses, cleared by exactly the writes to STATUS with
bit 8 set, and otherwise kept. -/
def Obligations.HosterrRecordsRefusedAccesses : Prop :=
  ∀ (i : Instr) (s t : State), exec i s = .next t →
    t.hosterr = ((s.hosterr && !(match i with | .wrStatus v => v.getLsbD 8 | _ => false)) ||
      accessRefused i (decide (s.phase ≠ .idle)))

/-- R28: the transitions of `pc`, and that there is no other. A command presented while IDLE either is rejected, with `pc`
as it was, or is accepted, with `ERR` cleared, and goes to (SINGLE, 0) or (FILL, 0). The last clause carries the table over
to steps: a step that is no reset runs one instruction in the same state, its turn gone from the script. -/
def Obligations.SequencerTransitions : Prop :=
  (∀ (i : Instr) (s t : State), s.Inv → exec i s = .next t →
      (isEngineStep i = false ∧ (presentsCommand i = true → s.phase = .idle → t.err ≠ .none) ∧ t.phase = s.phase ∧
          t.ctr = s.ctr) ∨
        (s.phase = .idle ∧ s.ctr = 0 ∧ presentsCommand i = true ∧ t.err = .none ∧ t.ctr = 0 ∧
          ((t.cmdl.extractLsb' 0 8 = 4 ∧ t.phase = .fill) ∨
            ((t.cmdl.extractLsb' 0 8 = 1 ∨ t.cmdl.extractLsb' 0 8 = 2 ∨ t.cmdl.extractLsb' 0 8 = 3) ∧
              t.phase = .single))) ∨
        (s.phase = .single ∧ s.ctr = 0 ∧ isEngineStep i = true ∧ t.phase = .idle ∧ t.ctr = 0) ∨
        (s.phase = .fill ∧ i = .seqFill ∧ s.ctr.toNat + 1 < s.ncost.toNat ∧ t.phase = .fill ∧
          t.ctr.toNat = s.ctr.toNat + 1) ∨
        (s.phase = .fill ∧ i = .seqFill ∧ s.ctr.toNat + 1 = s.ncost.toNat ∧ t.phase = .mixp ∧ t.ctr = 0) ∨
        (s.phase = .mixp ∧ i = .seqMixp ∧ s.ctr.toNat + 1 < s.ncost.toNat ∧ t.phase = .mixp ∧
          t.ctr.toNat = s.ctr.toNat + 1) ∨
        (s.phase = .mixp ∧ i = .seqMixp ∧ s.ctr.toNat + 1 = s.ncost.toNat ∧ t.phase = .idle ∧ t.ctr = 0)) ∧
    (∀ (s : State) (rest : List Turn), s.script = .reset :: rest →
      ∃ t, step s = .next t ∧ t.phase = .idle ∧ t.ctr = 0) ∧
    ∀ s t : State, step s = .next t →
      (∃ i, exec i { s with script := s.script.tail } = .next t) ∨ ∃ rest, s.script = .reset :: rest

/-- R210: a reset, whatever the unit was doing, leaves every register and flag at its reset value; the next `RD STATUS`
would return 0; the configuration and the turns still to come are kept. -/
def Obligations.ResetClearsRegistersAndFlags : Prop :=
  ∀ (s : State) (rest : List Turn), s.script = .reset :: rest →
    ∃ t, step s = .next t ∧ (∀ k : Fin 32, t.x[k.val] = 0) ∧ t.ncost = 0 ∧ t.cmdl = 0 ∧ t.phase = .idle ∧ t.ctr = 0 ∧
      t.done = false ∧ t.err = .none ∧ t.hosterr = false ∧ t.jidx = 0 ∧ t.statusWord = 0 ∧ t.cfg = s.cfg ∧
      t.script = rest

/-- R211, log 6: after a reset no scratch block has a value: reading any block of the space is a fault. -/
def Obligations.ResetLeavesNoScratchValue : Prop :=
  ∀ (s : State) (rest : List Turn), s.script = .reset :: rest →
    ∃ t, step s = .next t ∧ ∀ i : Nat, i < t.cfg.nMax → scratchRead t i = .error .scratchUnwritten

/-- R42 at reset. -/
def Obligations.UnitInvariantHoldsAtReset : Prop := State.reset.Inv

/-- R42, R27: every step from a state that meets the invariant, whatever turn it takes, leads to one that meets it. -/
def Obligations.StepKeepsUnitInvariant : Prop := ∀ s t : State, s.Inv → step s = .next t → t.Inv

/-- R150, R69, R180, R99: in a state that meets the invariant no step faults and the selector is never an unreachable
one; the step goes on, unless the unit is IDLE and it is the engine's turn (R26), where it stops as noStep (log 2). -/
def Obligations.UnitNeverFaults : Prop :=
  ∀ s : State, s.Inv →
    goesOn (step s) ∨
      (s.phase = .idle ∧ (s.script = [] ∨ ∃ rest, s.script = .engine :: rest) ∧ step s = .refused .noStep)

/-- R43, R73, R78, R160: while BUSY a host access changes nothing but HOSTERR and the read data. -/
def Obligations.HostCannotDisturbABusyUnit : Prop :=
  ∀ (s : State) (we : Bool) (idx : BitVec 6) (wdata : Word) (rest : List Turn),
    s.phase ≠ .idle → s.script = .access we idx wdata :: rest →
      ∃ t, step s = .next t ∧ t = { s with hosterr := t.hosterr, rdata := t.rdata, script := rest }

/-- R43, R197: while BUSY what a host access returns depends on STATUS, CTR and ID alone: two busy units that agree on
these return the same word and the same HOSTERR, whatever X, V, NCOST, CMDL and JIDX hold. -/
def Obligations.BusyReadsRevealNoData : Prop :=
  ∀ (s s' : State) (we : Bool) (idx : BitVec 6) (wdata : Word) (rest rest' : List Turn),
    s.phase ≠ .idle → s'.phase = s.phase → s'.ctr = s.ctr → s'.done = s.done → s'.err = s.err →
      s'.hosterr = s.hosterr → s'.cfg = s.cfg → s'.rdata = s.rdata →
      s.script = .access we idx wdata :: rest → s'.script = .access we idx wdata :: rest' →
        ∃ t t', step s = .next t ∧ step s' = .next t' ∧ t'.rdata = t.rdata ∧ t'.hosterr = t.hosterr

/-- R68: no host access reads or writes V: from two states that differ in V only, an access leads to two states that
differ in V only. -/
def Obligations.HostHasNoPathToScratch : Prop :=
  ∀ (i : Instr) (s t : State) (v' : Memory), isEngineStep i = false → exec i s = .next t →
    exec i { s with v := v' } = .next { t with v := v' }

/-! ## ROMIX -/

/-- R146, R147: a `ROMIX` accepted with a legal cost takes exactly `2 * NCOST` engine steps, is BUSY until the last, and
leaves ROMix of the block in X, (IDLE, 0), DONE, no error, the last index in JIDX, the snapshots in V, every other block
of V and every other register as before. -/
def Obligations.RomixComputesTheRomixFunction : Prop :=
  ∀ s : State, s.phase = .idle → s.script = [] → legalCost s.cfg s.ncost = true →
    ∃ a t, exec .romix s = .next a ∧ runSteps (2 * s.ncost.toNat) a = .next t ∧
      (∀ k : Nat, k < 2 * s.ncost.toNat → ∃ u, runSteps k a = .next u ∧ u.phase ≠ .idle) ∧
      (∀ i : Nat, i < s.ncost.toNat → scratchRead t i = .ok (blockMixIter i s.x)) ∧
      (∀ b : Nat, 128 * s.ncost.toNat ≤ b → readByte t.v b = readByte s.v b) ∧
      t = { s with
        x := roMix s.cfg.idxWord s.x s.ncost
        v := t.v
        cmdl := 4
        jidx := index s.cfg.idxWord
          (mixPhase s.cfg.idxWord s.x s.ncost (s.ncost.toNat - 1) (blockMixIter s.ncost.toNat s.x)) s.ncost
        done := true
        err := .none
        ctr := 0 }

/-- R43, R146: the same result under every interleaving: whatever accesses the host makes between the `2 * NCOST` turns of
the engine, X, JIDX, NCOST, CMDL, `pc`, DONE and ERR end as ROMix says. -/
def Obligations.RomixIsIndependentOfInterleaving : Prop :=
  ∀ (s : State) (turns : List Turn), s.phase = .idle → legalCost s.cfg s.ncost = true →
    Turn.reset ∉ turns → turns.count .engine = 2 * s.ncost.toNat → turns.getLast? = some .engine →
      ∃ a t, exec .romix s = .next a ∧ runSteps turns.length { a with script := turns } = .next t ∧
        t = { s with
          x := roMix s.cfg.idxWord s.x s.ncost
          v := t.v
          cmdl := 4
          jidx := index s.cfg.idxWord
            (mixPhase s.cfg.idxWord s.x s.ncost (s.ncost.toNat - 1) (blockMixIter s.ncost.toNat s.x)) s.ncost
          done := true
          err := .none
          ctr := 0
          hosterr := t.hosterr
          rdata := t.rdata
          script := [] }

/-- R3: the X a command leaves is a function of the X and NCOST held when it was written, and of nothing else: two idle
units of one configuration that agree on them end, after the same number of engine steps, with the same X, whatever V
and the other registers held. -/
def Obligations.ResultsDependOnXAndNcostOnly : Prop :=
  ∀ (w : Word) (s s' a a' t : State) (n : Nat),
    s.phase = .idle → s'.phase = .idle → s.script = [] → s'.script = [] →
      s'.cfg = s.cfg → s'.x = s.x → s'.ncost = s.ncost →
      exec (.wrCmd w) s = .next a → exec (.wrCmd w) s' = .next a' →
      runSteps n a = .next t → t.phase = .idle →
        ∃ t', runSteps n a' = .next t' ∧ t'.phase = .idle ∧ t'.x = t.x

/-! ## Host scripts -/

/-- R102: taken while IDLE, the turns of `LDW` put the block in X and change nothing else, and the turns of `STBLK` return
the thirty-two words of X in order and change only the read data; the 128 bytes `STBLK` yields are `encode` of X. -/
def Obligations.BlockTransfersLoadAndStoreX : Prop :=
  ∀ s : State, s.phase = .idle →
    (∀ b : Block, ∃ ws, takeTurns (ldw b) s = .next (ws, { s with x := b })) ∧
      (∀ b : Bytes128, ∃ ws, takeTurns (ldblk b) s = .next (ws, { s with x := decodeBytes b })) ∧
      (∀ (h : Fin 2) (a : Half), ∃ ws, takeTurns (ldhalf h a) s = .next (ws, { s with x := setHalf h a s.x })) ∧
      takeTurns stblk s = .next (s.x.toList, { s with rdata := s.x[31] }) ∧
      stblkBytes s = .next (encodeBlock s.x, { s with rdata := s.x[31] })

/-- R215: one call of the engine as a host script. With a legal cost, `SETN n`, `LDBLK b`, `ROMIX`, `WAIT` (log 13: with
fuel for the `2 * n` engine steps it ends), the last `RD STATUS` shows DONE and no error, and `STBLK` yields the bytes of
ROMix of the block whose bytes were loaded. The turns already pending stay pending. -/
def Obligations.OneCallComputesTheRomixBlock : Prop :=
  ∀ (s : State) (b : Bytes128) (n : Word) (fuel : Nat),
    s.phase = .idle → legalCost s.cfg n = true → 2 * n.toNat ≤ fuel →
      ∃ ws a u t, takeTurns (setn n ++ (ldblk b ++ [command 4])) s = .next (ws, a) ∧ hostWait fuel a = some u ∧
        u.rdata = (if s.hosterr then 0x102 else 0x002) ∧
        takeTurns stblk u = .next ((roMix s.cfg.idxWord (decodeBytes b) n).toList, t) ∧
        stblkBytes u = .next (encodeBlock (roMix s.cfg.idxWord (decodeBytes b) n), t) ∧
        t.hosterr = s.hosterr ∧ t.script = s.script

/-- R115, R116 with the tables of R113 and R114: Salsa20/8 is four double rounds, each the sixteen updates of the column
round and then the sixteen of the row round, in the order printed. The index tables are log 15's (the spec's general
knowledge, G1). -/
def Obligations.SalsaIsFourDoubleRounds : Prop :=
  ∀ a : Half,
    let column : List (Fin 16 × Fin 16 × Fin 16 × Nat) :=
      [(4, 0, 12, 7), (9, 5, 1, 7), (14, 10, 6, 7), (3, 15, 11, 7),
        (8, 4, 0, 9), (13, 9, 5, 9), (2, 14, 10, 9), (7, 3, 15, 9),
        (12, 8, 4, 13), (1, 13, 9, 13), (6, 2, 14, 13), (11, 7, 3, 13),
        (0, 12, 8, 18), (5, 1, 13, 18), (10, 6, 2, 18), (15, 11, 7, 18)]
    let row : List (Fin 16 × Fin 16 × Fin 16 × Nat) :=
      [(1, 0, 3, 7), (6, 5, 4, 7), (11, 10, 9, 7), (12, 15, 14, 7),
        (2, 1, 0, 9), (7, 6, 5, 9), (8, 11, 10, 9), (13, 12, 15, 9),
        (3, 2, 1, 13), (4, 7, 6, 13), (9, 8, 11, 13), (14, 13, 12, 13),
        (0, 3, 2, 18), (5, 4, 7, 18), (10, 9, 8, 18), (15, 14, 13, 18)]
    columnRound = column ∧ rowRound = row ∧
      salsa20_8 a =
        ((column ++ row) ++ (column ++ row) ++ (column ++ row) ++ (column ++ row)).foldl
          (fun x u => update x u.1 u.2.1 u.2.2.1 u.2.2.2) a

/-- R102: `ROMIXN n`, issued while IDLE, ends (log 13: with fuel for the `2 * n` engine steps of a legal cost) with NCOST
set, ROMix of the block in X, DONE and no error, and its last `RD STATUS` says so; with an illegal cost it ends at once with
an error code and nothing done. `SETN` while IDLE sets NCOST alone, `CLRHE` at any time clears HOSTERR alone. -/
def Obligations.RomixnSetsTheCostRunsAndWaits : Prop :=
  (∀ (s : State) (n : Word) (fuel : Nat), s.phase = .idle → legalCost s.cfg n = true → 2 * n.toNat ≤ fuel →
      ∃ u, romixn fuel n s = some u ∧ u.rdata = (if s.hosterr then 0x102 else 0x002) ∧
        u = { s with
          x := roMix s.cfg.idxWord s.x n
          v := u.v
          ncost := n
          cmdl := 4
          jidx := u.jidx
          done := true
          err := .none
          ctr := 0
          rdata := u.rdata }) ∧
    (∀ (s : State) (n : Word) (fuel : Nat), s.phase = .idle → legalCost s.cfg n = false →
      ∃ u, romixn fuel n s = some u ∧ u.err ≠ .none ∧
        u = { s with ncost := n, done := true, err := u.err, rdata := u.rdata }) ∧
    (∀ (s : State) (n : Word), s.phase = .idle → ∃ ws, takeTurns (setn n) s = .next (ws, { s with ncost := n })) ∧
    ∀ s : State, ∃ ws, takeTurns clrhe s = .next (ws, { s with hosterr := false })
end

