-- ==== Sys2Proof/Laws/Memory.lean ====
section
/-!
SUPPORT. What the scratch memory's operations do: one byte read after a block write, when a block read succeeds, and that
writing keeps the canonical form and the bounds of the space.
-/

namespace Sys2Proof.Machine

@[simp] theorem readByte_nil (a : Nat) : readByte [] a = none := rfl

theorem readByte_cons (c : Host.Cell) (m : Memory) (a : Nat) :
    readByte (c :: m) a = if c.1 = a then some c.2 else readByte m a := rfl

theorem readByte_append (m n : Memory) (a : Nat) : readByte (m ++ n) a = (readByte m a).or (readByte n a) := by
  induction m with
  | nil => simp
  | cons c m ih =>
    simp only [List.cons_append, readByte_cons, ih]
    split <;> simp

/-- Keeping the cells whose address satisfies `p` reads as before there and as nothing elsewhere. -/
theorem readByte_filter (p : Nat → Bool) (m : Memory) (a : Nat) :
    readByte (m.filter fun c => p c.1) a = if p a then readByte m a else none := by
  induction m with
  | nil => simp
  | cons c m ih =>
    by_cases hp : p c.1 <;> by_cases hc : c.1 = a <;> simp_all [readByte_cons]

theorem readByte_ofFn {n : Nat} (a : Nat) (f : Fin n → Byte) (b : Nat) :
    readByte (List.ofFn fun i : Fin n => (a + i.val, f i)) b =
      if h : a ≤ b ∧ b < a + n then some (f ⟨b - a, by omega⟩) else none := by
  induction n generalizing a with
  | zero => simp
  | succ n ih =>
    have shift : (List.ofFn fun i : Fin n => ((a + i.succ.val, f i.succ) : Host.Cell)) =
        List.ofFn fun i : Fin n => (((a + 1) + i.val, f i.succ) : Host.Cell) := by
      congr 1; funext i; simp [Nat.add_comm, Nat.add_left_comm]
    rw [List.ofFn_succ, readByte_cons, shift, ih]
    by_cases hab : a = b
    · subst hab; simp
    · have h0 : (a + (0 : Fin (n + 1)).val = b) = False := by simp [hab]
      simp only [h0, if_false]
      by_cases h : a + 1 ≤ b ∧ b < a + 1 + n
      · rw [dif_pos h, dif_pos (by omega)]
        congr 2; apply Fin.ext; simp; omega
      · rw [dif_neg h, dif_neg (by omega)]

/-- One byte after a block write (R65): the block's bytes at its addresses, every other byte as before. -/
theorem readByte_memWrite (m : Memory) (a : Nat) (b : Bytes128) (k : Nat) :
    readByte (memWrite m a b) k = if h : a ≤ k ∧ k < a + 128 then some (b[k - a]'(by omega)) else readByte m k := by
  have low := readByte_filter (fun n => decide (n < a)) m k
  have high := readByte_filter (fun n => decide (a + 128 ≤ n)) m k
  have mid := readByte_ofFn a (fun i : Fin 128 => b[i.val]) k
  unfold memWrite blockCells
  rw [readByte_append, readByte_append, low, high, mid]
  by_cases h : a ≤ k ∧ k < a + 128
  · have : ¬ k < a := by omega
    simp [h, this]
  · by_cases hk : k < a
    · have : ¬ a + 128 ≤ k := by omega
      have h' : ¬ (a ≤ k ∧ k < a + 128) := h
      simp [h', hk, this]
    · have : a + 128 ≤ k := by omega
      simp [h, hk, this]

/-- A block read succeeds with `b` exactly when each of its bytes holds `b`'s. -/
theorem memRead_eq_some {m : Memory} {a : Nat} {b : Bytes128} :
    memRead m a = some b ↔ ∀ n : Fin 128, readByte m (a + n.val) = some b[n.val] := by
  unfold memRead
  constructor
  · intro h n
    split at h
    · injection h with h; subst h; simp
    · simp at h
  · intro h
    rw [dif_pos (fun n => by simp [h n])]
    refine congrArg some (Vector.ext fun i hi => ?_)
    rw [Vector.getElem_ofFn]
    simp only [h ⟨i, hi⟩, Option.get_some]

theorem memRead_isSome {m : Memory} {a : Nat} :
    (memRead m a).isSome ↔ ∀ n : Fin 128, (readByte m (a + n.val)).isSome := by
  unfold memRead
  split <;> simp_all

theorem mem_blockCells {a : Nat} {b : Bytes128} {c : Host.Cell} (h : c ∈ blockCells a b) : a ≤ c.1 ∧ c.1 < a + 128 := by
  simp only [blockCells, List.mem_ofFn] at h
  obtain ⟨n, rfl⟩ := h
  simp

/-- A block write keeps the canonical form. -/
theorem memWrite_wf {m : Memory} {a : Nat} {b : Bytes128} (h : Memory.wf m) : Memory.wf (memWrite m a b) := by
  unfold memWrite Memory.wf
  simp only [List.pairwise_append, List.mem_append, List.mem_filter, decide_eq_true_eq]
  refine ⟨h.filter _, ⟨?_, h.filter _, ?_⟩, ?_⟩
  · rw [blockCells, List.pairwise_ofFn]
    intro i j hij
    exact Nat.add_lt_add_left hij a
  · intro c hc d hd
    have := mem_blockCells hc
    omega
  · intro c hc d hd
    rcases hd with hd | hd
    · have := mem_blockCells hd
      omega
    · omega

/-- A block write lists no address outside the memory's own and the block's. -/
theorem memWrite_range {m : Memory} {a : Nat} {b : Bytes128} {top : Nat} (h : ∀ c ∈ m, c.1 < top) (ha : a + 128 ≤ top) :
    ∀ c ∈ memWrite m a b, c.1 < top := by
  intro c hc
  simp only [memWrite, List.mem_append, List.mem_filter] at hc
  rcases hc with hc | hc | hc
  · exact h c hc.1
  · have := mem_blockCells hc
    omega
  · exact h c hc.1

theorem reset_memory_wf : Memory.wf State.reset.v := List.Pairwise.nil

end Sys2Proof.Machine
end

