-- ==== Sys2Proof/Laws/State.lean ====
section
/-!
SUPPORT. What each named update leaves in each field of State: one simp lemma per field per update, so that no proof
unfolds an update. Every field a rule does not name is unchanged.
-/

namespace Sys2Proof.Machine

@[simp] theorem State.raise_cfg (s : State) (c : ErrCode) : (s.raise c).cfg = s.cfg := rfl
@[simp] theorem State.raise_x (s : State) (c : ErrCode) : (s.raise c).x = s.x := rfl
@[simp] theorem State.raise_v (s : State) (c : ErrCode) : (s.raise c).v = s.v := rfl
@[simp] theorem State.raise_ncost (s : State) (c : ErrCode) : (s.raise c).ncost = s.ncost := rfl
@[simp] theorem State.raise_cmdl (s : State) (c : ErrCode) : (s.raise c).cmdl = s.cmdl := rfl
@[simp] theorem State.raise_phase (s : State) (c : ErrCode) : (s.raise c).phase = s.phase := rfl
@[simp] theorem State.raise_ctr (s : State) (c : ErrCode) : (s.raise c).ctr = s.ctr := rfl
@[simp] theorem State.raise_jidx (s : State) (c : ErrCode) : (s.raise c).jidx = s.jidx := rfl
@[simp] theorem State.raise_done (s : State) (c : ErrCode) : (s.raise c).done = true := rfl
@[simp] theorem State.raise_err (s : State) (c : ErrCode) : (s.raise c).err = c := rfl
@[simp] theorem State.raise_hosterr (s : State) (c : ErrCode) : (s.raise c).hosterr = s.hosterr := rfl
@[simp] theorem State.raise_rdata (s : State) (c : ErrCode) : (s.raise c).rdata = s.rdata := rfl
@[simp] theorem State.raise_script (s : State) (c : ErrCode) : (s.raise c).script = s.script := rfl

@[simp] theorem State.refuseAccess_cfg (s : State) : (s.refuseAccess).cfg = s.cfg := rfl
@[simp] theorem State.refuseAccess_x (s : State) : (s.refuseAccess).x = s.x := rfl
@[simp] theorem State.refuseAccess_v (s : State) : (s.refuseAccess).v = s.v := rfl
@[simp] theorem State.refuseAccess_ncost (s : State) : (s.refuseAccess).ncost = s.ncost := rfl
@[simp] theorem State.refuseAccess_cmdl (s : State) : (s.refuseAccess).cmdl = s.cmdl := rfl
@[simp] theorem State.refuseAccess_phase (s : State) : (s.refuseAccess).phase = s.phase := rfl
@[simp] theorem State.refuseAccess_ctr (s : State) : (s.refuseAccess).ctr = s.ctr := rfl
@[simp] theorem State.refuseAccess_jidx (s : State) : (s.refuseAccess).jidx = s.jidx := rfl
@[simp] theorem State.refuseAccess_done (s : State) : (s.refuseAccess).done = s.done := rfl
@[simp] theorem State.refuseAccess_err (s : State) : (s.refuseAccess).err = s.err := rfl
@[simp] theorem State.refuseAccess_hosterr (s : State) : (s.refuseAccess).hosterr = true := rfl
@[simp] theorem State.refuseAccess_rdata (s : State) : (s.refuseAccess).rdata = s.rdata := rfl
@[simp] theorem State.refuseAccess_script (s : State) : (s.refuseAccess).script = s.script := rfl

@[simp] theorem State.refuseRead_cfg (s : State) : (s.refuseRead).cfg = s.cfg := rfl
@[simp] theorem State.refuseRead_x (s : State) : (s.refuseRead).x = s.x := rfl
@[simp] theorem State.refuseRead_v (s : State) : (s.refuseRead).v = s.v := rfl
@[simp] theorem State.refuseRead_ncost (s : State) : (s.refuseRead).ncost = s.ncost := rfl
@[simp] theorem State.refuseRead_cmdl (s : State) : (s.refuseRead).cmdl = s.cmdl := rfl
@[simp] theorem State.refuseRead_phase (s : State) : (s.refuseRead).phase = s.phase := rfl
@[simp] theorem State.refuseRead_ctr (s : State) : (s.refuseRead).ctr = s.ctr := rfl
@[simp] theorem State.refuseRead_jidx (s : State) : (s.refuseRead).jidx = s.jidx := rfl
@[simp] theorem State.refuseRead_done (s : State) : (s.refuseRead).done = s.done := rfl
@[simp] theorem State.refuseRead_err (s : State) : (s.refuseRead).err = s.err := rfl
@[simp] theorem State.refuseRead_hosterr (s : State) : (s.refuseRead).hosterr = true := rfl
@[simp] theorem State.refuseRead_rdata (s : State) : (s.refuseRead).rdata = 0 := rfl
@[simp] theorem State.refuseRead_script (s : State) : (s.refuseRead).script = s.script := rfl

@[simp] theorem State.returnRead_cfg (s : State) (w : Word) : (s.returnRead w).cfg = s.cfg := rfl
@[simp] theorem State.returnRead_x (s : State) (w : Word) : (s.returnRead w).x = s.x := rfl
@[simp] theorem State.returnRead_v (s : State) (w : Word) : (s.returnRead w).v = s.v := rfl
@[simp] theorem State.returnRead_ncost (s : State) (w : Word) : (s.returnRead w).ncost = s.ncost := rfl
@[simp] theorem State.returnRead_cmdl (s : State) (w : Word) : (s.returnRead w).cmdl = s.cmdl := rfl
@[simp] theorem State.returnRead_phase (s : State) (w : Word) : (s.returnRead w).phase = s.phase := rfl
@[simp] theorem State.returnRead_ctr (s : State) (w : Word) : (s.returnRead w).ctr = s.ctr := rfl
@[simp] theorem State.returnRead_jidx (s : State) (w : Word) : (s.returnRead w).jidx = s.jidx := rfl
@[simp] theorem State.returnRead_done (s : State) (w : Word) : (s.returnRead w).done = s.done := rfl
@[simp] theorem State.returnRead_err (s : State) (w : Word) : (s.returnRead w).err = s.err := rfl
@[simp] theorem State.returnRead_hosterr (s : State) (w : Word) : (s.returnRead w).hosterr = s.hosterr := rfl
@[simp] theorem State.returnRead_rdata (s : State) (w : Word) : (s.returnRead w).rdata = w := rfl
@[simp] theorem State.returnRead_script (s : State) (w : Word) : (s.returnRead w).script = s.script := rfl

@[simp] theorem State.accept_cfg (s : State) (w : Word) : (s.accept w).cfg = s.cfg := rfl
@[simp] theorem State.accept_x (s : State) (w : Word) : (s.accept w).x = s.x := rfl
@[simp] theorem State.accept_v (s : State) (w : Word) : (s.accept w).v = s.v := rfl
@[simp] theorem State.accept_ncost (s : State) (w : Word) : (s.accept w).ncost = s.ncost := rfl
@[simp] theorem State.accept_cmdl (s : State) (w : Word) : (s.accept w).cmdl = w := rfl
@[simp] theorem State.accept_phase (s : State) (w : Word) : (s.accept w).phase = (if cmdOpc w = 4 then .fill else .single) := rfl
@[simp] theorem State.accept_ctr (s : State) (w : Word) : (s.accept w).ctr = 0 := rfl
@[simp] theorem State.accept_jidx (s : State) (w : Word) : (s.accept w).jidx = s.jidx := rfl
@[simp] theorem State.accept_done (s : State) (w : Word) : (s.accept w).done = false := rfl
@[simp] theorem State.accept_err (s : State) (w : Word) : (s.accept w).err = .none := rfl
@[simp] theorem State.accept_hosterr (s : State) (w : Word) : (s.accept w).hosterr = s.hosterr := rfl
@[simp] theorem State.accept_rdata (s : State) (w : Word) : (s.accept w).rdata = s.rdata := rfl
@[simp] theorem State.accept_script (s : State) (w : Word) : (s.accept w).script = s.script := rfl

@[simp] theorem State.setPc_cfg (s : State) (p : Phase) (c : Word) : (s.setPc p c).cfg = s.cfg := rfl
@[simp] theorem State.setPc_x (s : State) (p : Phase) (c : Word) : (s.setPc p c).x = s.x := rfl
@[simp] theorem State.setPc_v (s : State) (p : Phase) (c : Word) : (s.setPc p c).v = s.v := rfl
@[simp] theorem State.setPc_ncost (s : State) (p : Phase) (c : Word) : (s.setPc p c).ncost = s.ncost := rfl
@[simp] theorem State.setPc_cmdl (s : State) (p : Phase) (c : Word) : (s.setPc p c).cmdl = s.cmdl := rfl
@[simp] theorem State.setPc_phase (s : State) (p : Phase) (c : Word) : (s.setPc p c).phase = p := rfl
@[simp] theorem State.setPc_ctr (s : State) (p : Phase) (c : Word) : (s.setPc p c).ctr = c := rfl
@[simp] theorem State.setPc_jidx (s : State) (p : Phase) (c : Word) : (s.setPc p c).jidx = s.jidx := rfl
@[simp] theorem State.setPc_done (s : State) (p : Phase) (c : Word) : (s.setPc p c).done = s.done := rfl
@[simp] theorem State.setPc_err (s : State) (p : Phase) (c : Word) : (s.setPc p c).err = s.err := rfl
@[simp] theorem State.setPc_hosterr (s : State) (p : Phase) (c : Word) : (s.setPc p c).hosterr = s.hosterr := rfl
@[simp] theorem State.setPc_rdata (s : State) (p : Phase) (c : Word) : (s.setPc p c).rdata = s.rdata := rfl
@[simp] theorem State.setPc_script (s : State) (p : Phase) (c : Word) : (s.setPc p c).script = s.script := rfl

@[simp] theorem State.finish_cfg (s : State) : (s.finish).cfg = s.cfg := rfl
@[simp] theorem State.finish_x (s : State) : (s.finish).x = s.x := rfl
@[simp] theorem State.finish_v (s : State) : (s.finish).v = s.v := rfl
@[simp] theorem State.finish_ncost (s : State) : (s.finish).ncost = s.ncost := rfl
@[simp] theorem State.finish_cmdl (s : State) : (s.finish).cmdl = s.cmdl := rfl
@[simp] theorem State.finish_phase (s : State) : (s.finish).phase = .idle := rfl
@[simp] theorem State.finish_ctr (s : State) : (s.finish).ctr = 0 := rfl
@[simp] theorem State.finish_jidx (s : State) : (s.finish).jidx = s.jidx := rfl
@[simp] theorem State.finish_done (s : State) : (s.finish).done = true := rfl
@[simp] theorem State.finish_err (s : State) : (s.finish).err = s.err := rfl
@[simp] theorem State.finish_hosterr (s : State) : (s.finish).hosterr = s.hosterr := rfl
@[simp] theorem State.finish_rdata (s : State) : (s.finish).rdata = s.rdata := rfl
@[simp] theorem State.finish_script (s : State) : (s.finish).script = s.script := rfl

@[simp] theorem State.setX_cfg (s : State) (k : Fin 32) (w : Word) : (s.setX k w).cfg = s.cfg := rfl
@[simp] theorem State.setX_x (s : State) (k : Fin 32) (w : Word) : (s.setX k w).x = s.x.set k.val w := rfl
@[simp] theorem State.setX_v (s : State) (k : Fin 32) (w : Word) : (s.setX k w).v = s.v := rfl
@[simp] theorem State.setX_ncost (s : State) (k : Fin 32) (w : Word) : (s.setX k w).ncost = s.ncost := rfl
@[simp] theorem State.setX_cmdl (s : State) (k : Fin 32) (w : Word) : (s.setX k w).cmdl = s.cmdl := rfl
@[simp] theorem State.setX_phase (s : State) (k : Fin 32) (w : Word) : (s.setX k w).phase = s.phase := rfl
@[simp] theorem State.setX_ctr (s : State) (k : Fin 32) (w : Word) : (s.setX k w).ctr = s.ctr := rfl
@[simp] theorem State.setX_jidx (s : State) (k : Fin 32) (w : Word) : (s.setX k w).jidx = s.jidx := rfl
@[simp] theorem State.setX_done (s : State) (k : Fin 32) (w : Word) : (s.setX k w).done = s.done := rfl
@[simp] theorem State.setX_err (s : State) (k : Fin 32) (w : Word) : (s.setX k w).err = s.err := rfl
@[simp] theorem State.setX_hosterr (s : State) (k : Fin 32) (w : Word) : (s.setX k w).hosterr = s.hosterr := rfl
@[simp] theorem State.setX_rdata (s : State) (k : Fin 32) (w : Word) : (s.setX k w).rdata = s.rdata := rfl
@[simp] theorem State.setX_script (s : State) (k : Fin 32) (w : Word) : (s.setX k w).script = s.script := rfl

@[simp] theorem State.applyReset_cfg (s : State) : (s.applyReset).cfg = s.cfg := rfl
@[simp] theorem State.applyReset_x (s : State) : (s.applyReset).x = Vector.replicate 32 0 := rfl
@[simp] theorem State.applyReset_v (s : State) : (s.applyReset).v = [] := rfl
@[simp] theorem State.applyReset_ncost (s : State) : (s.applyReset).ncost = 0 := rfl
@[simp] theorem State.applyReset_cmdl (s : State) : (s.applyReset).cmdl = 0 := rfl
@[simp] theorem State.applyReset_phase (s : State) : (s.applyReset).phase = .idle := rfl
@[simp] theorem State.applyReset_ctr (s : State) : (s.applyReset).ctr = 0 := rfl
@[simp] theorem State.applyReset_jidx (s : State) : (s.applyReset).jidx = 0 := rfl
@[simp] theorem State.applyReset_done (s : State) : (s.applyReset).done = false := rfl
@[simp] theorem State.applyReset_err (s : State) : (s.applyReset).err = .none := rfl
@[simp] theorem State.applyReset_hosterr (s : State) : (s.applyReset).hosterr = false := rfl
@[simp] theorem State.applyReset_rdata (s : State) : (s.applyReset).rdata = s.rdata := rfl
@[simp] theorem State.applyReset_script (s : State) : (s.applyReset).script = s.script := rfl

@[simp] theorem State.afterFill_cfg (s : State) : s.afterFill.cfg = s.cfg := by
  unfold State.afterFill; split <;> simp
@[simp] theorem State.afterFill_x (s : State) : s.afterFill.x = s.x := by
  unfold State.afterFill; split <;> simp
@[simp] theorem State.afterFill_v (s : State) : s.afterFill.v = s.v := by
  unfold State.afterFill; split <;> simp
@[simp] theorem State.afterFill_ncost (s : State) : s.afterFill.ncost = s.ncost := by
  unfold State.afterFill; split <;> simp
@[simp] theorem State.afterFill_cmdl (s : State) : s.afterFill.cmdl = s.cmdl := by
  unfold State.afterFill; split <;> simp
@[simp] theorem State.afterFill_phase (s : State) : s.afterFill.phase = (if s.lastIteration then .mixp else .fill) := by
  unfold State.afterFill; split <;> simp
@[simp] theorem State.afterFill_ctr (s : State) : s.afterFill.ctr = (if s.lastIteration then 0 else s.ctr + 1) := by
  unfold State.afterFill; split <;> simp
@[simp] theorem State.afterFill_jidx (s : State) : s.afterFill.jidx = s.jidx := by
  unfold State.afterFill; split <;> simp
@[simp] theorem State.afterFill_done (s : State) : s.afterFill.done = s.done := by
  unfold State.afterFill; split <;> simp
@[simp] theorem State.afterFill_err (s : State) : s.afterFill.err = s.err := by
  unfold State.afterFill; split <;> simp
@[simp] theorem State.afterFill_hosterr (s : State) : s.afterFill.hosterr = s.hosterr := by
  unfold State.afterFill; split <;> simp
@[simp] theorem State.afterFill_rdata (s : State) : s.afterFill.rdata = s.rdata := by
  unfold State.afterFill; split <;> simp
@[simp] theorem State.afterFill_script (s : State) : s.afterFill.script = s.script := by
  unfold State.afterFill; split <;> simp

@[simp] theorem State.afterMixp_cfg (s : State) : s.afterMixp.cfg = s.cfg := by
  unfold State.afterMixp; split <;> simp
@[simp] theorem State.afterMixp_x (s : State) : s.afterMixp.x = s.x := by
  unfold State.afterMixp; split <;> simp
@[simp] theorem State.afterMixp_v (s : State) : s.afterMixp.v = s.v := by
  unfold State.afterMixp; split <;> simp
@[simp] theorem State.afterMixp_ncost (s : State) : s.afterMixp.ncost = s.ncost := by
  unfold State.afterMixp; split <;> simp
@[simp] theorem State.afterMixp_cmdl (s : State) : s.afterMixp.cmdl = s.cmdl := by
  unfold State.afterMixp; split <;> simp
@[simp] theorem State.afterMixp_phase (s : State) : s.afterMixp.phase = (if s.lastIteration then .idle else .mixp) := by
  unfold State.afterMixp; split <;> simp
@[simp] theorem State.afterMixp_ctr (s : State) : s.afterMixp.ctr = (if s.lastIteration then 0 else s.ctr + 1) := by
  unfold State.afterMixp; split <;> simp
@[simp] theorem State.afterMixp_jidx (s : State) : s.afterMixp.jidx = s.jidx := by
  unfold State.afterMixp; split <;> simp
@[simp] theorem State.afterMixp_done (s : State) : s.afterMixp.done = (if s.lastIteration then true else s.done) := by
  unfold State.afterMixp; split <;> simp
@[simp] theorem State.afterMixp_err (s : State) : s.afterMixp.err = s.err := by
  unfold State.afterMixp; split <;> simp
@[simp] theorem State.afterMixp_hosterr (s : State) : s.afterMixp.hosterr = s.hosterr := by
  unfold State.afterMixp; split <;> simp
@[simp] theorem State.afterMixp_rdata (s : State) : s.afterMixp.rdata = s.rdata := by
  unfold State.afterMixp; split <;> simp
@[simp] theorem State.afterMixp_script (s : State) : s.afterMixp.script = s.script := by
  unfold State.afterMixp; split <;> simp

end Sys2Proof.Machine
end

