-- ==== Sys2Proof/Laws/Ops.lean ====
section
/-!
SUPPORT. What each shared operation can do, said once: the write to `CMD`, the gated read, the scratch accesses, the
sequencer's advance; and the words of a half after it is read or written.
-/

namespace Sys2Proof.Machine

@[simp] theorem busy_eq_false {s : State} : s.busy = false ↔ s.phase = .idle := by simp [State.busy]

@[simp] theorem busy_eq_true {s : State} : s.busy = true ↔ s.phase ≠ .idle := by simp [State.busy]

/-- A write to `CMD` is refused, rejected with the code of the first failing check, or accepted. -/
theorem writeCmd_cases (w : Word) (s : State) :
    (s.phase ≠ .idle ∧ writeCmd w s = s.refuseAccess) ∨
      (s.phase = .idle ∧ acceptanceCheck w s ≠ .none ∧ writeCmd w s = s.raise (acceptanceCheck w s)) ∨
      (s.phase = .idle ∧ acceptanceCheck w s = .none ∧ writeCmd w s = s.accept w) := by
  by_cases h : s.phase = .idle
  · have hb : s.busy = false := by simp [h]
    cases hc : acceptanceCheck w s <;> simp [writeCmd, h, hb, hc]
  · have hb : s.busy = true := by simp [h]
    simp [writeCmd, h, hb]

/-- A gated read is refused while BUSY and returns the register while IDLE. -/
theorem readWhenIdle_cases (v : Word) (s : State) :
    (s.phase ≠ .idle ∧ readWhenIdle v s = s.refuseRead) ∨ (s.phase = .idle ∧ readWhenIdle v s = s.returnRead v) := by
  by_cases h : s.phase = .idle
  · have hb : s.busy = false := by simp [h]
    simp [readWhenIdle, h, hb]
  · have hb : s.busy = true := by simp [h]
    simp [readWhenIdle, h, hb]

/-- A scratch read succeeds only inside the space and on a block whose bytes are all written. -/
theorem scratchRead_eq_ok {s : State} {i : Nat} {b : Block} :
    scratchRead s i = .ok b ↔ i < s.cfg.nMax ∧ ∃ bytes, memRead s.v (blockAddr i) = some bytes ∧ decodeBytes bytes = b := by
  unfold scratchRead
  split
  · cases h : memRead s.v (blockAddr i) <;> simp_all
  · simp_all

/-- A scratch write inside the space changes the memory and nothing else. -/
theorem scratchWrite_eq_ok {s t : State} {i : Nat} {b : Block} :
    scratchWrite s i b = .ok t ↔ i < s.cfg.nMax ∧ t = { s with v := memWrite s.v (blockAddr i) (encodeBlock b) } := by
  unfold scratchWrite
  split <;> simp_all [eq_comm]

/-- The last iteration as an equation of numbers, so that updates of other fields do not stand in its way. -/
@[simp] theorem lastIteration_eq (s : State) : s.lastIteration = decide (s.ctr.toNat + 1 = s.ncost.toNat) := by
  simp only [State.lastIteration, BEq.beq]

theorem lastIteration_iff {s : State} : s.lastIteration = true ↔ s.ctr.toNat + 1 = s.ncost.toNat := by
  simp

@[simp] theorem getElem_getHalf (h : Fin 2) (x : Block) (k : Nat) (hk : k < 16) :
    (getHalf h x)[k] = x[16 * h.val + k]'(by omega) := by simp [getHalf]

@[simp] theorem getElem_setHalf (h : Fin 2) (a : Half) (x : Block) (k : Nat) (hk : k < 32) :
    (setHalf h a x)[k] = if k / 16 = h.val then a[k % 16]'(by omega) else x[k] := by simp [setHalf]

theorem getHalf_setHalf (h : Fin 2) (a : Half) (x : Block) : getHalf h (setHalf h a x) = a := by
  ext k hk
  have d : (16 * h.val + k) / 16 = h.val := by omega
  have m : (16 * h.val + k) % 16 = k := by omega
  simp [d, m]

theorem getHalf_setHalf_other {g h : Fin 2} (hne : g ≠ h) (a : Half) (x : Block) :
    getHalf g (setHalf h a x) = getHalf g x := by
  ext k hk
  have d : (16 * g.val + k) / 16 ≠ h.val := by
    intro e; apply hne; apply Fin.ext; omega
  simp [d]

@[simp] theorem getElem_xor16 (a b : Half) (k : Nat) (hk : k < 16) : (xor16 a b)[k] = a[k] ^^^ b[k] := by simp [xor16]

@[simp] theorem getElem_add16 (a b : Half) (k : Nat) (hk : k < 16) : (add16 a b)[k] = a[k] + b[k] := by simp [add16]

@[simp] theorem getElem_xor32v (a b : Block) (k : Nat) (hk : k < 32) : (xor32v a b)[k] = a[k] ^^^ b[k] := by simp [xor32v]

/-- Any round changes a half only through `update`: what `update` keeps, a round keeps. -/
theorem applyRound_induct {p : Half → Prop} (hp : ∀ x t a b r, p x → p (update x t a b r))
    (u : List (Fin 16 × Fin 16 × Fin 16 × Nat)) (x : Half) (h : p x) : p (applyRound u x) := by
  induction u generalizing x with
  | nil => exact h
  | cons e u ih => exact ih _ (hp _ _ _ _ _ h)

end Sys2Proof.Machine
end

