-- ==== Sys2Proof/Laws/Exec.lean ====
section
/-!
SUPPORT. What each engine step answers when its selector enables it, and the fields of a command word as numbers. The
provers cite these instead of unfolding the meanings.
-/

namespace Sys2Proof.Machine

/-- The selector from its two parts. -/
theorem selector_eq {s : State} {p : Phase} {o : BitVec 8} (hp : s.phase = p) (ho : cmdOpc s.cmdl = o) :
    s.selector = p.toBits ++ o := by simp [State.selector, hp, ho]

theorem selector_eq_iff {s : State} {p : Phase} {o : BitVec 8} :
    s.selector = p.toBits ++ o ↔ s.phase = p ∧ cmdOpc s.cmdl = o := by
  constructor
  · intro h
    have key : ∀ (a b : BitVec 2) (c d : BitVec 8), a ++ c = b ++ d → a = b ∧ c = d := by
      intro a b c d e
      have h1 := congrArg (fun v => BitVec.extractLsb' 8 2 v) e
      have h2 := congrArg (fun v => BitVec.extractLsb' 0 8 v) e
      simp only [BitVec.extractLsb'_append_eq_left, BitVec.extractLsb'_append_eq_right] at h1 h2
      exact ⟨h1, h2⟩
    obtain ⟨h1, h2⟩ := key _ _ _ _ h
    refine ⟨?_, h2⟩
    revert h1
    cases s.phase <;> cases p <;> decide
  · rintro ⟨hp, ho⟩
    exact selector_eq hp ho

/-- `h = w[8]` (R93) as a number. -/
theorem cmdH_val (w : Word) : (cmdH w).val = (w.extractLsb' 8 1).toNat := by
  have e : w.extractLsb' 8 1 = BitVec.ofBool (w.getLsbD 8) := by
    ext i hi
    obtain rfl : i = 0 := by omega
    simp [BitVec.getElem_extractLsb']
  rw [e]
  unfold cmdH
  cases w.getLsbD 8 <;> rfl

theorem execSeqMix_enabled {s : State} (h : s.selector = 0x301) :
    execSeqMix s = .next { s with x := setHalf s.stepHalf (mixCore (getHalf s.stepHalf s.x)) s.x }.finish := by
  rw [execSeqMix, if_pos h]

theorem execSeqXmix_enabled {s : State} (h : s.selector = 0x302) :
    execSeqXmix s = .next { s with
      x := setHalf s.stepHalf
        (mixCore (xor16 (getHalf s.stepHalf s.x) (getHalf (otherHalf s.stepHalf) s.x))) s.x }.finish := by
  rw [execSeqXmix, if_pos h]

theorem execSeqBmix_enabled {s : State} (h : s.selector = 0x303) :
    execSeqBmix s = .next { s with x := blockMix s.x }.finish := by rw [execSeqBmix, if_pos h]

theorem execSeqFill_enabled {s : State} (h : s.selector = 0x104) (hc : s.ctr.toNat < s.cfg.nMax) :
    execSeqFill s = .next { s with
      v := memWrite s.v (blockAddr s.ctr.toNat) (encodeBlock s.x)
      x := blockMix s.x }.afterFill := by
  have hw : scratchWrite s s.ctr.toNat s.x = .ok { s with v := memWrite s.v (blockAddr s.ctr.toNat) (encodeBlock s.x) } :=
    scratchWrite_eq_ok.2 ⟨hc, rfl⟩
  rw [execSeqFill, if_pos h, hw]

theorem execSeqMixp_enabled {s : State} {b : Block} (h : s.selector = 0x204)
    (hr : scratchRead s (index s.cfg.idxWord s.x s.ncost).toNat = .ok b) :
    execSeqMixp s = .next { s with
      jidx := index s.cfg.idxWord s.x s.ncost
      x := blockMix (xor32v s.x b) }.afterMixp := by
  rw [execSeqMixp, if_pos h]
  simp only [hr]

/-- What a `SEQ.FILL` that goes on did. -/
theorem execSeqFill_next {s t : State} (h : execSeqFill s = .next t) :
    s.selector = 0x104 ∧ s.ctr.toNat < s.cfg.nMax ∧
      t = { s with
        v := memWrite s.v (blockAddr s.ctr.toNat) (encodeBlock s.x)
        x := blockMix s.x }.afterFill := by
  by_cases hs : s.selector = 0x104
  · rw [execSeqFill, if_pos hs] at h
    split at h
    · simp at h
    · rename_i u hu
      obtain ⟨hc, rfl⟩ := scratchWrite_eq_ok.1 hu
      injection h with h
      exact ⟨hs, hc, h.symm⟩
  · rw [execSeqFill, if_neg hs] at h
    simp at h

/-- What a `SEQ.MIXP` that goes on did. -/
theorem execSeqMixp_next {s t : State} (h : execSeqMixp s = .next t) :
    s.selector = 0x204 ∧ ∃ b, scratchRead s (index s.cfg.idxWord s.x s.ncost).toNat = .ok b ∧
      t = { s with jidx := index s.cfg.idxWord s.x s.ncost, x := blockMix (xor32v s.x b) }.afterMixp := by
  by_cases hs : s.selector = 0x204
  · rw [execSeqMixp, if_pos hs] at h
    dsimp only at h
    split at h
    · simp at h
    · rename_i b hb
      injection h with h
      exact ⟨hs, b, hb, h.symm⟩
  · rw [execSeqMixp, if_neg hs] at h
    simp at h

/-- What a single command's step that goes on did. -/
theorem execSeqMix_next {s t : State} (h : execSeqMix s = .next t) :
    s.selector = 0x301 ∧ t = { s with x := setHalf s.stepHalf (mixCore (getHalf s.stepHalf s.x)) s.x }.finish := by
  by_cases hs : s.selector = 0x301
  · rw [execSeqMix_enabled hs] at h
    injection h with h
    exact ⟨hs, h.symm⟩
  · rw [execSeqMix, if_neg hs] at h
    simp at h

theorem execSeqXmix_next {s t : State} (h : execSeqXmix s = .next t) :
    s.selector = 0x302 ∧ t = { s with
      x := setHalf s.stepHalf
        (mixCore (xor16 (getHalf s.stepHalf s.x) (getHalf (otherHalf s.stepHalf) s.x))) s.x }.finish := by
  by_cases hs : s.selector = 0x302
  · rw [execSeqXmix_enabled hs] at h
    injection h with h
    exact ⟨hs, h.symm⟩
  · rw [execSeqXmix, if_neg hs] at h
    simp at h

theorem execSeqBmix_next {s t : State} (h : execSeqBmix s = .next t) :
    s.selector = 0x303 ∧ t = { s with x := blockMix s.x }.finish := by
  by_cases hs : s.selector = 0x303
  · rw [execSeqBmix_enabled hs] at h
    injection h with h
    exact ⟨hs, h.symm⟩
  · rw [execSeqBmix, if_neg hs] at h
    simp at h

end Sys2Proof.Machine
end

