-- ==== Sys2Proof/Laws/Cases.lean ====
section
/-!
SUPPORT. Everything an instruction can do, said once: `exec_cases` for one that goes on, and that no host access stops.
Invariants and whole-machine rules are derived from these.
-/

namespace Sys2Proof.Machine

/-- What a host access, or a command, can do to the state. -/
inductive HostEffect (s : State) : State → Prop
  | refuseAccess : HostEffect s s.refuseAccess
  | refuseRead : HostEffect s s.refuseRead
  | returnRead (w : Word) : HostEffect s (s.returnRead w)
  | raise (w : Word) (idle : s.phase = .idle) (bad : acceptanceCheck w s ≠ .none) :
      HostEffect s (s.raise (acceptanceCheck w s))
  | accept (w : Word) (idle : s.phase = .idle) (good : acceptanceCheck w s = .none) : HostEffect s (s.accept w)
  | setX (k : Fin 32) (v : Word) (idle : s.phase = .idle) : HostEffect s (s.setX k v)
  | setNcost (v : Word) (idle : s.phase = .idle) : HostEffect s { s with ncost := v }
  | clearHosterr : HostEffect s { s with hosterr := false }
  | nothing : HostEffect s s

theorem writeCmd_effect (w : Word) (s : State) : HostEffect s (writeCmd w s) := by
  rcases writeCmd_cases w s with ⟨_, e⟩ | ⟨hi, hc, e⟩ | ⟨hi, hc, e⟩ <;> rw [e]
  · exact .refuseAccess
  · exact .raise w hi hc
  · exact .accept w hi hc

theorem readWhenIdle_effect (v : Word) (s : State) : HostEffect s (readWhenIdle v s) := by
  rcases readWhenIdle_cases v s with ⟨_, e⟩ | ⟨_, e⟩ <;> rw [e]
  · exact .refuseRead
  · exact .returnRead v

/-- Every instruction that is no engine step goes on, with one of the host's effects. -/
theorem exec_host (i : Instr) (s : State)
    (hi : i ≠ .seqFill ∧ i ≠ .seqMixp ∧ i ≠ .seqMix ∧ i ≠ .seqXmix ∧ i ≠ .seqBmix) :
    ∃ t, exec i s = .next t ∧ HostEffect s t := by
  obtain ⟨h1, h2, h3, h4, h5⟩ := hi
  cases i with
  | seqFill => exact absurd rfl h1
  | seqMixp => exact absurd rfl h2
  | seqMix => exact absurd rfl h3
  | seqXmix => exact absurd rfl h4
  | seqBmix => exact absurd rfl h5
  | mix h => exact ⟨_, rfl, writeCmd_effect _ s⟩
  | xmix h => exact ⟨_, rfl, writeCmd_effect _ s⟩
  | bmix => exact ⟨_, rfl, writeCmd_effect _ s⟩
  | romix => exact ⟨_, rfl, writeCmd_effect _ s⟩
  | wrCmd w => exact ⟨_, rfl, writeCmd_effect w s⟩
  | rdX k => exact ⟨_, rfl, readWhenIdle_effect _ s⟩
  | rdNcost => exact ⟨_, rfl, readWhenIdle_effect _ s⟩
  | rdCmd => exact ⟨_, rfl, readWhenIdle_effect _ s⟩
  | rdJidx => exact ⟨_, rfl, readWhenIdle_effect _ s⟩
  | rdStatus => exact ⟨_, rfl, .returnRead _⟩
  | rdCtr => exact ⟨_, rfl, .returnRead _⟩
  | rdId => exact ⟨_, rfl, .returnRead _⟩
  | rdUnmapped98 a => exact ⟨_, rfl, .refuseRead⟩
  | rdUnmappedA0 a => exact ⟨_, rfl, .refuseRead⟩
  | rdUnmappedC0 a => exact ⟨_, rfl, .refuseRead⟩
  | wrX k v =>
    refine ⟨_, rfl, ?_⟩
    by_cases hb : s.busy = true
    · rw [if_pos hb]; exact .refuseAccess
    · rw [if_neg hb]; exact .setX k v (by simpa using hb)
  | wrNcost v =>
    refine ⟨_, rfl, ?_⟩
    by_cases hb : s.busy = true
    · rw [if_pos hb]; exact .refuseAccess
    · rw [if_neg hb]; exact .setNcost v (by simpa using hb)
  | wrStatus v =>
    refine ⟨_, rfl, ?_⟩
    by_cases hb : v.getLsbD 8 = true
    · rw [if_pos hb]; exact .clearHosterr
    · rw [if_neg hb]; exact .nothing
  | wrCtr v => exact ⟨_, rfl, .refuseAccess⟩
  | wrJidx v => exact ⟨_, rfl, .refuseAccess⟩
  | wrId v => exact ⟨_, rfl, .refuseAccess⟩
  | wrUnmapped98 a v => exact ⟨_, rfl, .refuseAccess⟩
  | wrUnmappedA0 a v => exact ⟨_, rfl, .refuseAccess⟩
  | wrUnmappedC0 a v => exact ⟨_, rfl, .refuseAccess⟩

theorem decodeRead_isEngineStep : ∀ a : BitVec 6, isEngineStep (decodeRead a) = false := by decide +kernel

theorem decodeWrite_isEngineStep (a : BitVec 6) (v : Word) : isEngineStep (decodeWrite a v) = false := by
  simp only [decodeWrite, apply_dite isEngineStep, apply_ite isEngineStep]
  simp [isEngineStep]

/-- No bus access is an engine step. -/
theorem decodeBus_isEngineStep (sel : BitVec 7) (wdata : Word) : isEngineStep (decodeBus sel wdata) = false := by
  unfold decodeBus
  split
  · exact decodeWrite_isEngineStep _ _
  · exact decodeRead_isEngineStep _

/-- A host access or a command goes on, with one of the host's effects: `exec_host` with its hypothesis as a Bool. -/
theorem exec_host' {i : Instr} (hi : isEngineStep i = false) (s : State) : ∃ t, exec i s = .next t ∧ HostEffect s t := by
  refine exec_host i s ⟨?_, ?_, ?_, ?_, ?_⟩ <;> (rintro rfl; simp [isEngineStep] at hi)

/-- What an instruction that goes on did: one of the five engine steps, or a host's effect. -/
theorem exec_cases {i : Instr} {s t : State} (h : exec i s = .next t) :
    (i = .seqFill ∧ s.selector = 0x104 ∧ s.ctr.toNat < s.cfg.nMax ∧
        t = { s with
          v := memWrite s.v (blockAddr s.ctr.toNat) (encodeBlock s.x)
          x := blockMix s.x }.afterFill) ∨
      (i = .seqMixp ∧ s.selector = 0x204 ∧ ∃ b, scratchRead s (index s.cfg.idxWord s.x s.ncost).toNat = .ok b ∧
        t = { s with jidx := index s.cfg.idxWord s.x s.ncost, x := blockMix (xor32v s.x b) }.afterMixp) ∨
      ((i = .seqMix ∨ i = .seqXmix ∨ i = .seqBmix) ∧ s.phase = .single ∧ ∃ x, t = { s with x := x }.finish) ∨
      (isEngineStep i = false ∧ HostEffect s t) := by
  have single : ∀ o : BitVec 8, s.selector = Phase.single.toBits ++ o → s.phase = .single := fun o e =>
    (selector_eq_iff.1 e).1
  by_cases h1 : i = .seqFill
  · subst h1; exact .inl ⟨rfl, execSeqFill_next h⟩
  by_cases h2 : i = .seqMixp
  · subst h2; exact .inr (.inl ⟨rfl, execSeqMixp_next h⟩)
  by_cases h3 : i = .seqMix
  · subst h3
    obtain ⟨hs, e⟩ := execSeqMix_next h
    exact .inr (.inr (.inl ⟨.inl rfl, single 1 hs, _, e⟩))
  by_cases h4 : i = .seqXmix
  · subst h4
    obtain ⟨hs, e⟩ := execSeqXmix_next h
    exact .inr (.inr (.inl ⟨.inr (.inl rfl), single 2 hs, _, e⟩))
  by_cases h5 : i = .seqBmix
  · subst h5
    obtain ⟨hs, e⟩ := execSeqBmix_next h
    exact .inr (.inr (.inl ⟨.inr (.inr rfl), single 3 hs, _, e⟩))
  obtain ⟨u, hu, he⟩ := exec_host i s ⟨h1, h2, h3, h4, h5⟩
  rw [h] at hu
  injection hu with hu
  subst hu
  refine .inr (.inr (.inr ⟨?_, he⟩))
  cases i <;> simp_all [isEngineStep]

end Sys2Proof.Machine
end

