-- ==== Sys2Proof/Laws/Decode.lean ====
section
/-!
SUPPORT. The decoder said once per format: the fields of a bus selector, what a read and a write selector decode to, and
the five selectors that enable an engine step.
-/

namespace Sys2Proof

theorem busSelector_we : ∀ (we : Bool) (idx : BitVec 6), (BitVec.ofBool we ++ idx).getLsbD 6 = we := by decide

theorem busSelector_idx : ∀ (we : Bool) (idx : BitVec 6), (BitVec.ofBool we ++ idx).extractLsb' 0 6 = idx := by decide

/-- A bus access decodes by its direction and its word index. -/
theorem decodeBus_access (we : Bool) (idx : BitVec 6) (wdata : Word) :
    decodeBus (BitVec.ofBool we ++ idx) wdata = if we then decodeWrite idx wdata else decodeRead idx := by
  unfold decodeBus
  rw [busSelector_we, busSelector_idx]

theorem decode_busRead (idx : BitVec 6) : decode (busRead idx) = .ok (decodeRead idx) :=
  congrArg Decoded.ok (decodeBus_access false idx 0)

theorem decode_busWrite (idx : BitVec 6) (v : Word) : decode (busWrite idx v) = .ok (decodeWrite idx v) :=
  congrArg Decoded.ok (decodeBus_access true idx v)

/-- The five selectors that enable a step (R99), and that every other one refuses. -/
theorem decodeSeq_cases (sel : BitVec 10) :
    (sel = 0x104 ∧ decodeSeq sel = .ok .seqFill) ∨ (sel = 0x204 ∧ decodeSeq sel = .ok .seqMixp) ∨
      (sel = 0x301 ∧ decodeSeq sel = .ok .seqMix) ∨ (sel = 0x302 ∧ decodeSeq sel = .ok .seqXmix) ∨
      (sel = 0x303 ∧ decodeSeq sel = .ok .seqBmix) ∨ (∃ e, decodeSeq sel = .error e) := by
  unfold decodeSeq
  split_ifs <;> simp_all

end Sys2Proof
end

