-- ==== Sys2Proof/Laws/PerInstr.lean ====
section
/-!
SUPPORT. Per-instruction laws. Family EncodingMatchesTable: the word of a well-formed instruction has the width of its row
of spec/opcode_table.json and is matched by that row's mask and pattern (`30_encoding.md` R91, R92).
-/

namespace Sys2Proof.Laws.EncodingMatchesTable

def Statement (i : Instr) : Prop :=
  i.wellFormed = true → (encode i).width = i.row.width ∧ i.row.hits (encode i).tableWord = true

/-- The law of every read of a word index, and of every write, is about the index alone. -/
theorem read_selectors : ∀ k : Fin 32,
    (TableRow.mk 7 0x60 0x00).hits (0#1 ++ BitVec.ofNat 6 k.val).toNat = true ∧
      (TableRow.mk 7 0x60 0x40).hits (1#1 ++ BitVec.ofNat 6 k.val).toNat = true := by decide

theorem unmapped_selectors : ∀ a : BitVec 6,
    (inUnmapped98 a = true → (TableRow.mk 7 0x7E 0x26).hits (0#1 ++ a).toNat = true ∧
        (TableRow.mk 7 0x7E 0x66).hits (1#1 ++ a).toNat = true) ∧
      (inUnmappedA0 a = true → (TableRow.mk 7 0x78 0x28).hits (0#1 ++ a).toNat = true ∧
        (TableRow.mk 7 0x78 0x68).hits (1#1 ++ a).toNat = true) ∧
      (inUnmappedC0 a = true → (TableRow.mk 7 0x70 0x30).hits (0#1 ++ a).toNat = true ∧
        (TableRow.mk 7 0x70 0x70).hits (1#1 ++ a).toNat = true) := by decide

theorem mix (h : Fin 2) : Statement (.mix h) := by
  revert h; unfold Statement; decide

theorem xmix (h : Fin 2) : Statement (.xmix h) := by
  revert h; unfold Statement; decide

theorem bmix : Statement (.bmix) := by unfold Statement; decide

theorem romix : Statement (.romix) := by unfold Statement; decide

theorem seqFill : Statement (.seqFill) := by unfold Statement; decide

theorem seqMixp : Statement (.seqMixp) := by unfold Statement; decide

theorem seqMix : Statement (.seqMix) := by unfold Statement; decide

theorem seqXmix : Statement (.seqXmix) := by unfold Statement; decide

theorem seqBmix : Statement (.seqBmix) := by unfold Statement; decide

theorem rdX (k : Fin 32) : Statement (.rdX k) := fun _ => ⟨rfl, (read_selectors k).1⟩

theorem rdNcost : Statement (.rdNcost) := by unfold Statement; decide

theorem rdCmd : Statement (.rdCmd) := by unfold Statement; decide

theorem rdStatus : Statement (.rdStatus) := by unfold Statement; decide

theorem rdCtr : Statement (.rdCtr) := by unfold Statement; decide

theorem rdJidx : Statement (.rdJidx) := by unfold Statement; decide

theorem rdId : Statement (.rdId) := by unfold Statement; decide

theorem rdUnmapped98 (a : BitVec 6) : Statement (.rdUnmapped98 a) := fun hw => ⟨rfl, ((unmapped_selectors a).1 hw).1⟩

theorem rdUnmappedA0 (a : BitVec 6) : Statement (.rdUnmappedA0 a) := fun hw => ⟨rfl, ((unmapped_selectors a).2.1 hw).1⟩

theorem rdUnmappedC0 (a : BitVec 6) : Statement (.rdUnmappedC0 a) := fun hw => ⟨rfl, ((unmapped_selectors a).2.2 hw).1⟩

theorem wrX (k : Fin 32) (v : Word) : Statement (.wrX k v) := fun _ => ⟨rfl, (read_selectors k).2⟩

theorem wrNcost (v : Word) : Statement (.wrNcost v) :=
  fun _ => ⟨rfl, (by decide : (TableRow.mk 7 0x7F 0x60).hits (1#1 ++ 0x20#6).toNat = true)⟩

theorem wrCmd (w : Word) : Statement (.wrCmd w) :=
  fun _ => ⟨rfl, (by decide : (TableRow.mk 7 0x7F 0x61).hits (1#1 ++ 0x21#6).toNat = true)⟩

theorem wrStatus (v : Word) : Statement (.wrStatus v) :=
  fun _ => ⟨rfl, (by decide : (TableRow.mk 7 0x7F 0x62).hits (1#1 ++ 0x22#6).toNat = true)⟩

theorem wrCtr (v : Word) : Statement (.wrCtr v) :=
  fun _ => ⟨rfl, (by decide : (TableRow.mk 7 0x7F 0x63).hits (1#1 ++ 0x23#6).toNat = true)⟩

theorem wrJidx (v : Word) : Statement (.wrJidx v) :=
  fun _ => ⟨rfl, (by decide : (TableRow.mk 7 0x7F 0x64).hits (1#1 ++ 0x24#6).toNat = true)⟩

theorem wrId (v : Word) : Statement (.wrId v) :=
  fun _ => ⟨rfl, (by decide : (TableRow.mk 7 0x7F 0x65).hits (1#1 ++ 0x25#6).toNat = true)⟩

theorem wrUnmapped98 (a : BitVec 6) (v : Word) : Statement (.wrUnmapped98 a v) := fun hw => ⟨rfl, ((unmapped_selectors a).1 hw).2⟩

theorem wrUnmappedA0 (a : BitVec 6) (v : Word) : Statement (.wrUnmappedA0 a v) := fun hw => ⟨rfl, ((unmapped_selectors a).2.1 hw).2⟩

theorem wrUnmappedC0 (a : BitVec 6) (v : Word) : Statement (.wrUnmappedC0 a v) := fun hw => ⟨rfl, ((unmapped_selectors a).2.2 hw).2⟩

end Sys2Proof.Laws.EncodingMatchesTable
end

