-- ==== Sys2Proof/Laws/Step.lean ====
section
/-!
SUPPORT. What one turn brings and what one step does, said once (`fetch_cases`, `step_cases`); the decoder on bus accesses
never refuses.
-/

namespace Sys2Proof.Machine

/-- The state a turn is taken in: the turn is gone from the script. -/
def State.popTurn (s : State) : State := { s with script := s.script.tail }

/-- The engine's turn brings the step its selector enables. -/
theorem fetchEncoding_seq (s : State) :
    (∃ i, decodeSeq s.selector = .ok i ∧ fetchEncoding (.seq s.selector) s = .instr i s) ∨
      (∃ e, decodeSeq s.selector = .error e ∧ fetchEncoding (.seq s.selector) s = .stop (stopReason e)) := by
  cases h : decodeSeq s.selector <;> simp [fetchEncoding, decode, h]

/-- A host access always brings an instruction. -/
theorem fetchEncoding_access (we : Bool) (idx : BitVec 6) (wdata : Word) (s : State) :
    fetchEncoding (accessEncoding we idx wdata) s = .instr (decodeBus (BitVec.ofBool we ++ idx) wdata) s := rfl

/-- The engine's turn, taken in `s`: one of the five steps when the selector enables it, else a refusal. -/
theorem engineTurn_cases (s : State) :
    (s.selector = 0x104 ∧ fetchEncoding (.seq s.selector) s = .instr .seqFill s) ∨
      (s.selector = 0x204 ∧ fetchEncoding (.seq s.selector) s = .instr .seqMixp s) ∨
      (s.selector = 0x301 ∧ fetchEncoding (.seq s.selector) s = .instr .seqMix s) ∨
      (s.selector = 0x302 ∧ fetchEncoding (.seq s.selector) s = .instr .seqXmix s) ∨
      (s.selector = 0x303 ∧ fetchEncoding (.seq s.selector) s = .instr .seqBmix s) ∨
      (∃ r, fetchEncoding (.seq s.selector) s = .stop r) := by
  rcases decodeSeq_cases s.selector with ⟨h, d⟩ | ⟨h, d⟩ | ⟨h, d⟩ | ⟨h, d⟩ | ⟨h, d⟩ | ⟨e, d⟩
  · exact .inl ⟨h, by simp only [fetchEncoding, decode, d]⟩
  · exact .inr (.inl ⟨h, by simp only [fetchEncoding, decode, d]⟩)
  · exact .inr (.inr (.inl ⟨h, by simp only [fetchEncoding, decode, d]⟩))
  · exact .inr (.inr (.inr (.inl ⟨h, by simp only [fetchEncoding, decode, d]⟩)))
  · exact .inr (.inr (.inr (.inr (.inl ⟨h, by simp only [fetchEncoding, decode, d]⟩))))
  · exact .inr (.inr (.inr (.inr (.inr ⟨stopReason e, by simp only [fetchEncoding, decode, d]⟩))))

/-- A step that answers a next state ran an instruction that was fetched, or took the reset event. -/
theorem step_cases {s t : State} (h : step s = .next t) :
    (∃ i u, fetch s = .instr i u ∧ exec i u = .next t) ∨ (∃ u, fetch s = .reset u ∧ t = u.applyReset) := by
  unfold step runFetched at h
  split at h
  · exact .inl ⟨_, _, ‹_›, h⟩
  · injection h with h; exact .inr ⟨_, ‹_›, h.symm⟩
  · simp at h

/-- Fetching changes nothing but the script. -/
theorem fetch_state {s u : State} (h : (∃ i, fetch s = .instr i u) ∨ fetch s = .reset u) :
    u = { s with script := u.script } := by
  have enc : ∀ (e : Encoding) (v w : State) (i : Instr), fetchEncoding e v = .instr i w → w = v := by
    intro e v w i
    unfold fetchEncoding
    split <;> simp_all
  have encR : ∀ (e : Encoding) (v w : State), fetchEncoding e v ≠ .reset w := by
    intro e v w
    unfold fetchEncoding
    split <;> simp
  unfold fetch at h
  split at h <;> rcases h with ⟨i, h⟩ | h
  · rw [enc _ _ _ _ h]
  · exact absurd h (encR _ _ _)
  · rw [enc _ _ _ _ h]
  · exact absurd h (encR _ _ _)
  · rw [enc _ _ _ _ h]
  · exact absurd h (encR _ _ _)
  · simp at h
  · injection h with h; subst h; rfl

/-- The step of a state whose script begins with a host access. -/
theorem step_access {s : State} {we : Bool} {idx : BitVec 6} {wdata : Word} {rest : List Turn}
    (h : s.script = .access we idx wdata :: rest) :
    step s = exec (decodeBus (BitVec.ofBool we ++ idx) wdata) { s with script := rest } := by
  simp [step, runFetched, fetch, h, fetchEncoding_access]

/-- The step of a state whose script begins with a reset. -/
theorem step_reset {s : State} {rest : List Turn} (h : s.script = .reset :: rest) :
    step s = .next { s with script := rest }.applyReset := by
  simp [step, runFetched, fetch, h]

/-- With no turn pending, and when the engine's turn comes first, the step is the engine's. -/
theorem step_engine {s : State} (h : s.script = [] ∨ ∃ rest, s.script = .engine :: rest) :
    step s = runFetched (fetchEncoding (.seq s.selector) s.popTurn) := by
  rcases h with h | ⟨rest, h⟩
  · have e : s.popTurn = s := by
      cases s
      simp_all [State.popTurn]
    simp [step, fetch, h, e]
  · simp [step, fetch, h, State.popTurn]

end Sys2Proof.Machine
end

