-- ==== Sys2Proof/Laws/Script.lean ====
section
/-!
SUPPORT. Host scripts: one turn in its own terms, lists of turns one after the other, and what `STBLK` and `ROMIXN` are
made of.
-/

namespace Sys2Proof.Machine

/-- A host access taken as a turn runs the instruction it decodes to, in the state it is taken in. -/
theorem takeTurn_access (we : Bool) (idx : BitVec 6) (wdata : Word) (s : State) :
    takeTurn (.access we idx wdata) s = exec (decodeBus (BitVec.ofBool we ++ idx) wdata) s :=
  step_access (s := { s with script := .access we idx wdata :: s.script }) rfl

/-- A turn of the engine runs what the selector enables. -/
theorem takeTurn_engine (s : State) : takeTurn .engine s = runFetched (fetchEncoding (.seq s.selector) s) :=
  step_engine (s := { s with script := .engine :: s.script }) (.inr ⟨s.script, rfl⟩)

@[simp] theorem takeTurns_nil (s : State) : takeTurns [] s = .next ([], s) := rfl

/-- What a first turn that goes on leaves to the rest. -/
theorem takeTurns_cons_next {t : Turn} {ts : List Turn} {s s1 s2 : State} {ws : List Word} (h : takeTurn t s = .next s1)
    (hs : takeTurns ts s1 = .next (ws, s2)) : takeTurns (t :: ts) s = .next (s1.rdata :: ws, s2) := by
  simp only [takeTurns, h, hs]

/-- Two lists of turns that go on, one after the other. -/
theorem takeTurns_append_next {ts us : List Turn} {s s1 s2 : State} {ws vs : List Word}
    (h : takeTurns ts s = .next (ws, s1)) (hs : takeTurns us s1 = .next (vs, s2)) :
    takeTurns (ts ++ us) s = .next (ws ++ vs, s2) := by
  induction ts generalizing s ws with
  | nil =>
    injection h with h
    injection h with h1 h2
    subst h1 h2
    exact hs
  | cons t ts ih =>
    rw [takeTurns] at h
    split at h
    · simp at h
    · simp at h
    · split at h
      · simp at h
      · simp at h
      · injection h with h
        injection h with h1 h2
        subst h1 h2
        exact takeTurns_cons_next ‹_› (ih ‹_›)

/-- A list of turns returns one word for each turn. -/
theorem takeTurns_length {ts : List Turn} {s t : State} {ws : List Word} (h : takeTurns ts s = .next (ws, t)) :
    ws.length = ts.length := by
  induction ts generalizing s ws with
  | nil =>
    injection h with h
    injection h with h1 h2
    subst h1
    rfl
  | cons u ts ih =>
    rw [takeTurns] at h
    split at h
    · simp at h
    · simp at h
    · split at h
      · simp at h
      · simp at h
      · injection h with h
        injection h with h1 h2
        subst h1 h2
        simp [ih ‹_›]

/-- The words of a block make that block up again. -/
@[simp] theorem blockOfWords_toList (x : Block) : blockOfWords x.toList = x := by
  ext k hk
  simp [blockOfWords]

/-- `STBLK` where its thirty-two reads go on. -/
theorem stblkBytes_of_reads {s t : State} {ws : List Word} (h : takeTurns stblk s = .next (ws, t)) :
    stblkBytes s = .next (encodeBlock (blockOfWords ws), t) := by simp only [stblkBytes, h]

/-- `ROMIXN` where its `SETN` and `ROMIX` go on. -/
theorem romixn_of_turns {fuel : Nat} {n : Word} {s t : State} {ws : List Word}
    (h : takeTurns (romixnTurns n) s = .next (ws, t)) : romixn fuel n s = hostWait fuel t := by simp only [romixn, h]

end Sys2Proof.Machine
end

