-- ==== Sys2Proof/Tests/Slice0.lean ====
section
/-!
SUPPORT. The author's own tests. Expected values come from `95_test_vectors.md` (its vector's name stands in the
docstring), from the encoding tables of the spec, or from the rule named. `test_witness_<Name>` shows that the hypotheses of
obligation `<Name>` can be met, at the ends of their ranges.
-/

namespace Sys2Proof.Tests

set_option Elab.async false

open Sys2Proof.Machine

/-! ## Helpers -/

/-- Does the outcome go on, to a state that satisfies `p`? -/
def answers (o : Host.Outcome State Fault Refusal) (p : State → Bool) : Bool :=
  match o with
  | .next t => p t
  | .fault _ => false
  | .refused _ => false

def faultsWith (o : Host.Outcome State Fault Refusal) (f : Fault) : Bool :=
  match o with
  | .next _ => false
  | .fault g => f == g
  | .refused _ => false

def refusesWith (o : Host.Outcome State Fault Refusal) (r : Refusal) : Bool :=
  match o with
  | .next _ => false
  | .fault _ => false
  | .refused q => r == q

theorem next_of_answers {o : Host.Outcome State Fault Refusal} {p : State → Bool} (h : answers o p = true) :
    ∃ t, o = .next t ∧ p t = true := by
  cases o with
  | next t => exact ⟨t, rfl, h⟩
  | fault f => simp [answers] at h
  | refused r => simp [answers] at h

/-- The block `K32`. -/
def k32 : Block := Vector.ofFn fun k : Fin 32 => BitVec.ofNat 32 k.val

/-- The half `E0`. -/
def e0 : Half := (Vector.replicate 16 0).set 0 1

/-- 95_test_vectors.md K1: the input of the published Salsa20/8 vector. -/
def k1In : Half :=
  (#v[0x219a877e, 0x86c93e4f, 0xe640a97c, 0x268f7141, 0x5b55eeba, 0xb5c1618c, 0x1146f80d, 0x1d3bcd6d] : Vector Word 8) ++
    (#v[0x19f324ee, 0x853d9bdf, 0x4b1e1214, 0x32aac55a, 0x291d0276, 0x2948c709, 0x8dc6ebed, 0x5ec2b8b8] : Vector Word 8)

/-- K1: its MixCore. -/
def k1Out : Half :=
  (#v[0x9c851fa4, 0x99cc0866, 0xcbca813b, 0x05ef0c02, 0x81214b04, 0x7d33fda2, 0x631c7bfd, 0x292f6896] : Vector Word 8) ++
    (#v[0x683139b4, 0xbce6c9e3, 0xb7c56bfe, 0xba966da0, 0x10cc24e4, 0x5c74912c, 0x3d67ad24, 0x818f61c7] : Vector Word 8)

/-- UP1: `E0` after the first column round. -/
def e0Column : Half :=
  (#v[0x08008145, 0x00000000, 0x00000000, 0x00000000, 0x00000080, 0x00000000, 0x00000000, 0x00000000] : Vector Word 8) ++
    (#v[0x00010200, 0x00000000, 0x00000000, 0x00000000, 0x20500000, 0x00000000, 0x00000000, 0x00000000] : Vector Word 8)

/-- UP1: `E0` after one double round. -/
def e0Double : Half :=
  (#v[0x8186a22d, 0x0040a284, 0x82479210, 0x06929051, 0x08000090, 0x02402200, 0x00004000, 0x00800000] : Vector Word 8) ++
    (#v[0x00010200, 0x20400000, 0x08008104, 0x00000000, 0x20500000, 0xa0000040, 0x0008180a, 0x612a8020] : Vector Word 8)

/-- M9: the second half after `MIX 1` on `W32`. -/
def m9Half : Half :=
  (#v[0xb3b053c3, 0xbfe022ac, 0x5885c75f, 0x610ab53f, 0xdeda7d85, 0x338954b6, 0x09bcee92, 0x56aea6f0] : Vector Word 8) ++
    (#v[0x1013d0ee, 0x3ab485c2, 0xe106b34e, 0x68f5fcef, 0xc3308eac, 0x59550f72, 0xb3b81964, 0xb3d0dc22] : Vector Word 8)

/-- The input block `W32`. -/
def w32 : Block :=
  (#v[0x9e3779b9, 0x3c6ef372, 0xdaa66d2b, 0x78dde6e4, 0x1715609d, 0xb54cda56, 0x5384540f, 0xf1bbcdc8] : Vector Word 8) ++
    (#v[0x8ff34781, 0x2e2ac13a, 0xcc623af3, 0x6a99b4ac, 0x08d12e65, 0xa708a81e, 0x454021d7, 0xe3779b90] : Vector Word 8) ++
    (#v[0x81af1549, 0x1fe68f02, 0xbe1e08bb, 0x5c558274, 0xfa8cfc2d, 0x98c475e6, 0x36fbef9f, 0xd5336958] : Vector Word 8) ++
    (#v[0x736ae311, 0x11a25cca, 0xafd9d683, 0x4e11503c, 0xec48c9f5, 0x8a8043ae, 0x28b7bd67, 0xc6ef3720] : Vector Word 8)

/-- B1: BlockMix of `K32`. -/
def b1 : Block :=
  (#v[0xdb987384, 0x6e6df192, 0xe835b110, 0xa98124f2, 0xa98124f2, 0xdb987384, 0x6e6df192, 0xe835b110] : Vector Word 8) ++
    (#v[0xe835b110, 0xa98124f2, 0xdb987384, 0x6e6df192, 0x6e6df192, 0xe835b110, 0xa98124f2, 0xdb987384] : Vector Word 8) ++
    (#v[0xf3d25a54, 0xacf59143, 0x1bf81f10, 0x0a12fec4, 0xd497ddce, 0x4f815f0a, 0x53afb712, 0x19b5c87a] : Vector Word 8) ++
    (#v[0x5f8cc79d, 0xfce4f0ef, 0x0b40c61c, 0xb2bf9039, 0xd84c0a7b, 0xe86e7c74, 0x6f1bd2aa, 0x56bceb7c] : Vector Word 8)

/-- B7: the second half after `XMIX 1` on `W32`. -/
def b7Half : Half :=
  (#v[0xc8023f7e, 0xb04dd877, 0x7b229316, 0x87f1f09a, 0xa5b71bbb, 0x04c1bef4, 0x37b265e8, 0xed64df8c] : Vector Word 8) ++
    (#v[0xa383559d, 0x8b34dedd, 0x06541745, 0x8f56f6e7, 0xe276301a, 0x5042f907, 0x7ef3c8e7, 0x3830f59e] : Vector Word 8)

/-- Q1: X at (MIXP, 0). -/
def q1Start : Block :=
  (#v[0x9e65cb63, 0x2066229b, 0xecb70745, 0x42ed877b, 0xeecf2bdc, 0x282f897f, 0x42358259, 0x75e95d3f] : Vector Word 8) ++
    (#v[0x4f5d207e, 0x33bf0523, 0x93e83593, 0xf2e03523, 0xbeb9c2c9, 0xcb31602a, 0xdeb4f202, 0xb4d859c6] : Vector Word 8) ++
    (#v[0x2e4fbf10, 0xeba8db18, 0x4d756d1c, 0x76534331, 0x6c9dc38a, 0x24531874, 0x2ad5635b, 0xb9cb45df] : Vector Word 8) ++
    (#v[0x1a2b409d, 0xa143d65a, 0x31f9dadf, 0x8dcd1d0c, 0x0d66af8c, 0x431e9000, 0x31bee7dd, 0x8fe1270b] : Vector Word 8)

/-- Q1: X at (MIXP, 1). -/
def q1Next : Block :=
  (#v[0x95062e9b, 0xb8a28695, 0x8c3d8011, 0xeb1a3a40, 0x22692bd9, 0xd0416676, 0x187b56f8, 0x8fcad8a9] : Vector Word 8) ++
    (#v[0x9ee97d28, 0x73c94e7a, 0x29c90579, 0x0e7019a1, 0x1b4b2070, 0x3f669b9f, 0x9acb77a4, 0x2756136c] : Vector Word 8) ++
    (#v[0x00770084, 0x85a3d057, 0xb4e1da36, 0x4838168c, 0xb76689a6, 0x6197e52f, 0x769fd55e, 0x768e16eb] : Vector Word 8) ++
    (#v[0xf857b5bf, 0x48d5060c, 0xb9fe3694, 0x9a32082e, 0x6f94ad09, 0x87d52c1f, 0xb43bd609, 0x9c467011] : Vector Word 8)

/-- Q1: the result. -/
def q1Result : Block :=
  (#v[0xb0dc15ea, 0xa6fb7aa4, 0x8ef751ef, 0x5df206fc, 0x156cfe8a, 0x404786dc, 0xf08c7a0b, 0xd9830deb] : Vector Word 8) ++
    (#v[0xf3a40e8b, 0x900ad8c3, 0x7af770ab, 0x5f1a45f7, 0x1b3ad574, 0x56cf2049, 0xc9ffa11a, 0xf33756c9] : Vector Word 8) ++
    (#v[0x64b8e7ba, 0x4d30b9b5, 0x7819f3b9, 0xcad35c6c, 0xb95534d7, 0x83c5103a, 0xe9bb3e06, 0xd32526db] : Vector Word 8) ++
    (#v[0x22fcbdaa, 0xea63720e, 0x040e4117, 0xf56b2ce9, 0x31e5f36c, 0xc7957fe7, 0x5b3e7cb8, 0x236f694b] : Vector Word 8)

/-- An idle unit with `X = K32`. -/
def idleUnit (ncost : Word) : State := { State.reset with x := k32, ncost := ncost }

/-- A unit with a single command `w` accepted. -/
def singleUnit (w : Word) (x : Block) : State := { State.reset with x := x, cmdl := w, phase := .single }

/-- A unit in the fill phase, no block written yet. -/
def fillUnit (ncost ctr : Word) : State :=
  { State.reset with x := k32, ncost := ncost, cmdl := 4, phase := .fill, ctr := ctr }

/-- Vector Q1 at (MIXP, ctr): `NCOST = 2`, `V[0] = K32`, `V[1]` = B1. -/
def mixpUnit (ctr : Word) (x : Block) : State :=
  { State.reset with
    x := x, ncost := 2, cmdl := 4, phase := .mixp, ctr := ctr
    v := memWrite (memWrite [] 0 (encodeBlock k32)) 128 (encodeBlock b1) }

/-- The state with one turn pending. -/
def withTurn (t : Turn) (s : State) : State := { s with script := [t] }

/-! ## Well-formedness: an ill-formed term for each check -/

theorem test_wellFormed_refuses_rdUnmapped98 :
    (Instr.rdUnmapped98 0x25).wellFormed = false ∧ (Instr.rdUnmapped98 0x28).wellFormed = false := by decide

theorem test_wellFormed_refuses_rdUnmappedA0 :
    (Instr.rdUnmappedA0 0x27).wellFormed = false ∧ (Instr.rdUnmappedA0 0x30).wellFormed = false := by decide

theorem test_wellFormed_refuses_rdUnmappedC0 : (Instr.rdUnmappedC0 0x2F).wellFormed = false := by decide

theorem test_wellFormed_refuses_wrUnmapped98 :
    (Instr.wrUnmapped98 0x25 0).wellFormed = false ∧ (Instr.wrUnmapped98 0x28 0).wellFormed = false := by decide

theorem test_wellFormed_refuses_wrUnmappedA0 :
    (Instr.wrUnmappedA0 0x27 0).wellFormed = false ∧ (Instr.wrUnmappedA0 0x30 0).wellFormed = false := by decide

theorem test_wellFormed_refuses_wrUnmappedC0 : (Instr.wrUnmappedC0 0x2F 0).wellFormed = false := by decide

/-! ## Decoding, every constructor, from words written out field by field -/

/-- R90, R92: RSV, H, OPC. -/
theorem test_decode_commands :
    decode (.c (0b00000000000000000000000#23 ++ 0#1 ++ 0x01#8)) = .ok (.mix 0) ∧
      decode (.c (0b00000000000000000000000#23 ++ 1#1 ++ 0x01#8)) = .ok (.mix 1) ∧
      decode (.c (0b00000000000000000000000#23 ++ 0#1 ++ 0x02#8)) = .ok (.xmix 0) ∧
      decode (.c (0b00000000000000000000000#23 ++ 1#1 ++ 0x02#8)) = .ok (.xmix 1) ∧
      decode (.c (0b00000000000000000000000#23 ++ 0#1 ++ 0x03#8)) = .ok .bmix ∧
      decode (.c (0b00000000000000000000000#23 ++ 0#1 ++ 0x04#8)) = .ok .romix := by decide

/-- R96 and the encoding vectors of 95_test_vectors.md section 7. -/
theorem test_decode_refuses_illegal_words :
    decode (.c 0x00000000) = .error .reservedOpcode ∧ decode (.c 0x00000005) = .error .reservedOpcode ∧
      decode (.c 0x00000103) = .error .halfSelect ∧ decode (.c 0x00000104) = .error .halfSelect ∧
      decode (.c 0x00000201) = .error .reservedBits ∧ decode (.c 0x80000004) = .error .reservedBits ∧
      decode (.c 0xFFFFFFFF) = .error .reservedBits := by decide

/-- R99: PHASE (FILL 1, MIXP 2, SINGLE 3), CMDL[7:0]. -/
theorem test_decode_engine_steps :
    decode (.seq (0b01#2 ++ 4#8)) = .ok .seqFill ∧ decode (.seq (0b10#2 ++ 4#8)) = .ok .seqMixp ∧
      decode (.seq (0b11#2 ++ 1#8)) = .ok .seqMix ∧ decode (.seq (0b11#2 ++ 2#8)) = .ok .seqXmix ∧
      decode (.seq (0b11#2 ++ 3#8)) = .ok .seqBmix ∧ decode (.seq (0b00#2 ++ 4#8)) = .error .engineIdle ∧
      decode (.seq (0b11#2 ++ 4#8)) = .error .unreachableSelector ∧
      decode (.seq (0b01#2 ++ 3#8)) = .error .unreachableSelector := by decide

/-- R70, R91: `we = 0`, `addr[7:2]` the byte address divided by four. -/
theorem test_decode_reads :
    decode (.bus (0#1 ++ 0b000000#6) 9) = .ok (.rdX 0) ∧ decode (.bus (0#1 ++ 0b011111#6) 9) = .ok (.rdX 31) ∧
      decode (.bus (0#1 ++ 0b100000#6) 9) = .ok .rdNcost ∧ decode (.bus (0#1 ++ 0b100001#6) 9) = .ok .rdCmd ∧
      decode (.bus (0#1 ++ 0b100010#6) 9) = .ok .rdStatus ∧ decode (.bus (0#1 ++ 0b100011#6) 9) = .ok .rdCtr ∧
      decode (.bus (0#1 ++ 0b100100#6) 9) = .ok .rdJidx ∧ decode (.bus (0#1 ++ 0b100101#6) 9) = .ok .rdId ∧
      decode (.bus (0#1 ++ 0b100110#6) 9) = .ok (.rdUnmapped98 0x26) ∧
      decode (.bus (0#1 ++ 0b100111#6) 9) = .ok (.rdUnmapped98 0x27) ∧
      decode (.bus (0#1 ++ 0b101000#6) 9) = .ok (.rdUnmappedA0 0x28) ∧
      decode (.bus (0#1 ++ 0b101111#6) 9) = .ok (.rdUnmappedA0 0x2F) ∧
      decode (.bus (0#1 ++ 0b110000#6) 9) = .ok (.rdUnmappedC0 0x30) ∧
      decode (.bus (0#1 ++ 0b111111#6) 9) = .ok (.rdUnmappedC0 0x3F) := by decide

/-- R70, R91: `we = 1`. -/
theorem test_decode_writes :
    decode (.bus (1#1 ++ 0b000000#6) 9) = .ok (.wrX 0 9) ∧ decode (.bus (1#1 ++ 0b011111#6) 9) = .ok (.wrX 31 9) ∧
      decode (.bus (1#1 ++ 0b100000#6) 9) = .ok (.wrNcost 9) ∧ decode (.bus (1#1 ++ 0b100001#6) 9) = .ok (.wrCmd 9) ∧
      decode (.bus (1#1 ++ 0b100010#6) 9) = .ok (.wrStatus 9) ∧ decode (.bus (1#1 ++ 0b100011#6) 9) = .ok (.wrCtr 9) ∧
      decode (.bus (1#1 ++ 0b100100#6) 9) = .ok (.wrJidx 9) ∧ decode (.bus (1#1 ++ 0b100101#6) 9) = .ok (.wrId 9) ∧
      decode (.bus (1#1 ++ 0b100110#6) 9) = .ok (.wrUnmapped98 0x26 9) ∧
      decode (.bus (1#1 ++ 0b100111#6) 9) = .ok (.wrUnmapped98 0x27 9) ∧
      decode (.bus (1#1 ++ 0b101000#6) 9) = .ok (.wrUnmappedA0 0x28 9) ∧
      decode (.bus (1#1 ++ 0b101111#6) 9) = .ok (.wrUnmappedA0 0x2F 9) ∧
      decode (.bus (1#1 ++ 0b110000#6) 9) = .ok (.wrUnmappedC0 0x30 9) ∧
      decode (.bus (1#1 ++ 0b111111#6) 9) = .ok (.wrUnmappedC0 0x3F 9) := by decide

/-- The table's words, by width (log 12). -/
theorem test_decodeTableWord :
    decodeTableWord 32 0x00000101 = some (.mix 1) ∧ decodeTableWord 32 0x00000103 = none ∧
      decodeTableWord 16 0x204 = some .seqMixp ∧ decodeTableWord 16 0x004 = none ∧
      decodeTableWord 8 0x05 = some (.rdX 5) ∧ decodeTableWord 8 0x61 = some (.wrCmd 0) ∧
      decodeTableWord 40 0x0000000461 = some (.wrCmd 4) ∧ decodeTableWord 8 0x80 = none := by decide

/-! ## The datapath -/

/-- A1 to A4b. -/
theorem test_rotl32 :
    rotl32 0x80000001 7 = 0x000000C0 ∧ rotl32 0x00000001 18 = 0x00040000 ∧ rotl32 0x12345678 9 = 0x68ACF024 ∧
      rotl32 0xFFFFFFFF 13 = 0xFFFFFFFF ∧ rotl32 0x80000000 13 = 0x00001000 := by decide

/-- UP1. -/
theorem test_columnRound_e0 : applyRound columnRound e0 = e0Column := by decide +kernel

/-- UP1. -/
theorem test_doubleRound_e0 : doubleRound e0 = e0Double := by decide +kernel

/-- K1, the published vector. -/
theorem test_mixCore_k1 : mixCore k1In = k1Out := by decide +kernel

/-- M2: a saturating adder fails this. -/
theorem test_mixCore_wraps : mixCore (Vector.replicate 16 0x80000000) = Vector.replicate 16 0 := by decide +kernel

/-- LE1. -/
theorem test_bytes_little_endian :
    (decodeBytes (Vector.ofFn fun n : Fin 128 => BitVec.ofNat 8 n.val))[1] = 0x07060504 ∧
      (encodeBlock (k32.set 5 0x01020304))[20] = 0x04 ∧ (encodeBlock (k32.set 5 0x01020304))[23] = 0x01 := by
  decide +kernel

/-- R65, R39: a written block reads back, and the byte after it has no value. -/
theorem test_scratch_bytes :
    readByte (memWrite [] 128 (encodeBlock k32)) 132 = some 1 ∧
      readByte (memWrite [] 128 (encodeBlock k32)) 256 = none ∧
      readByte (memWrite [] 128 (encodeBlock k32)) 127 = none := by decide +kernel

/-! ## Engine steps -/

/-- M9: `MIX 1` on `W32`. -/
theorem test_seqMix_half1 :
    answers (exec .seqMix (singleUnit 0x101 w32)) (fun t => decide (t = { singleUnit 0x101 w32 with
      x := setHalf 1 m9Half w32, phase := .idle, done := true })) = true := by decide +kernel

/-- B7: `XMIX 1` on `W32`. -/
theorem test_seqXmix_half1 :
    answers (exec .seqXmix (singleUnit 0x102 w32)) (fun t => decide (t = { singleUnit 0x102 w32 with
      x := setHalf 1 b7Half w32, phase := .idle, done := true })) = true := by decide +kernel

/-- B1: `BMIX` on `K32`; B2 is the wrong order. -/
theorem test_seqBmix_k32 :
    answers (exec .seqBmix (singleUnit 3 k32)) (fun t => decide (t = { singleUnit 3 k32 with
      x := b1, phase := .idle, done := true })) = true := by decide +kernel

/-- R143's example: the block stored is the block before the mix. -/
theorem test_seqFill_first :
    answers (exec .seqFill (fillUnit 2 0)) (fun t => decide (readByte t.v 4 = some 1 ∧ readByte t.v 124 = some 31 ∧
      readByte t.v 128 = none ∧ t.phase = .fill ∧ t.ctr = 1)) = true := by decide +kernel

/-- R143: the last fill step goes to (MIXP, 0) and stores at block 1. -/
theorem test_seqFill_last :
    answers (exec .seqFill { fillUnit 2 1 with x := b1 }) (fun t => decide (t.x = q1Start ∧
      readByte t.v 132 = some 0x92 ∧ t.phase = .mixp ∧ t.ctr = 0)) = true := by decide +kernel

/-- Q1, first mix step: index 1. -/
theorem test_seqMixp_first :
    answers (exec .seqMixp { mixpUnit 0 q1Start with v := memWrite [] 128 (encodeBlock b1) }) (fun t =>
      decide (t.x = q1Next ∧ t.jidx = 1 ∧ t.phase = .mixp ∧
      t.ctr = 1 ∧ t.done = false)) = true := by decide +kernel

/-- Q1, last mix step. -/
theorem test_seqMixp_last :
    answers (exec .seqMixp (mixpUnit 1 q1Next)) (fun t => decide (t.jidx = 1 ∧ t.phase = .idle ∧
      t.ctr = 0 ∧ t.done = true)) = true := by decide +kernel

/-- R99, U9, R65: the stops. -/
theorem test_engine_stops :
    refusesWith (exec .seqMix (singleUnit 2 k32)) .stepNotEnabled = true ∧
      faultsWith (exec .seqMixp { fillUnit 2 0 with phase := .mixp }) .scratchUnwritten = true ∧
      faultsWith (exec .seqFill (fillUnit 0x800 0x400)) .scratchOutOfRange = true ∧
      refusesWith (step State.reset) .noStep = true ∧
      refusesWith (step (singleUnit 4 k32)) .stepNotEnabled = true := by decide +kernel

/-! ## Commands and host accesses -/

/-- The word `RD STATUS` returns right after `w` is written to CMD of an idle unit with cost `n` (section 6). -/
def statusAfter (n w : Word) (expected : Word) : Bool :=
  answers (exec (.wrCmd w) (idleUnit n)) fun t => answers (exec .rdStatus t) fun u => u.rdata == expected

/-- E1 to E4, E6, E7: `ROMIX` with an illegal cost. -/
theorem test_romix_rejections :
    statusAfter 0 4 0x12 = true ∧ statusAfter 1 4 0x12 = true ∧ statusAfter 3 4 0x12 = true ∧
      statusAfter 6 4 0x12 = true ∧ statusAfter 0x3E8 4 0x12 = true ∧ statusAfter 0xFFFFFFFF 4 0x12 = true ∧
      statusAfter 0x80000001 4 0x12 = true ∧ statusAfter 0x800 4 0x22 = true ∧ statusAfter 0x80000000 4 0x22 = true ∧
      statusAfter 0xBB8 4 0x12 = true := by decide +kernel

/-- E8 to E10b: illegal words. -/
theorem test_invalid_commands :
    statusAfter 2 0 0x32 = true ∧ statusAfter 2 5 0x32 = true ∧ statusAfter 2 0xFF 0x32 = true ∧
      statusAfter 3 0x104 0x32 = true ∧ statusAfter 2 0x103 0x32 = true ∧ statusAfter 2 0x201 0x32 = true ∧
      statusAfter 2 0x80000004 0x32 = true := by decide +kernel

/-- E5, E5b, E11 to E11c: accepted. -/
theorem test_accepted_commands :
    statusAfter 0x400 4 0x05 = true ∧ statusAfter 2 4 0x05 = true ∧ statusAfter 0 1 0x0D = true ∧
      statusAfter 3 0x102 0x0D = true ∧ statusAfter 0xFFFFFFFF 3 0x0D = true := by decide +kernel

/-- R98: what acceptance of `MIX 1`, `XMIX 1`, `BMIX` and `ROMIX` latches. -/
theorem test_commands_latch :
    answers (exec (.mix 1) (idleUnit 0)) (fun t => decide (t.cmdl = 0x101 ∧ t.x = k32)) = true ∧
      answers (exec (.xmix 1) (idleUnit 0)) (fun t => decide (t.cmdl = 0x102 ∧ t.x = k32)) = true ∧
      answers (exec .bmix (idleUnit 0)) (fun t => decide (t.cmdl = 3 ∧ t.x = k32)) = true ∧
      answers (exec .romix (idleUnit 2)) (fun t => decide (t.cmdl = 4 ∧ t.phase = .fill)) = true := by decide +kernel

/-- E12: an error is overwritten by the next command. -/
theorem test_error_then_retry :
    answers (exec .romix { idleUnit 4 with err := .invalidParameter, done := true }) (fun t =>
      decide (t.statusWord = 0x05)) = true := by decide +kernel

/-- H12: the reads after reset. -/
theorem test_reads_after_reset :
    answers (exec .rdStatus State.reset) (fun t => t.rdata == 0) = true ∧
      answers (exec .rdCtr State.reset) (fun t => t.rdata == 0) = true ∧
      answers (exec .rdId State.reset) (fun t => t.rdata == 0x00011F0A) = true ∧
      answers (exec .rdNcost State.reset) (fun t => t.rdata == 0) = true ∧
      answers (exec .rdCmd State.reset) (fun t => t.rdata == 0) = true ∧
      answers (exec .rdJidx State.reset) (fun t => t.rdata == 0) = true ∧
      answers (exec (.rdX 7) State.reset) (fun t => t.rdata == 0) = true := by decide +kernel

/-- H1 to H1e: STATUS and CTR while busy. -/
theorem test_busy_status_ctr :
    answers (exec .rdStatus (fillUnit 4 3)) (fun t => t.rdata == 0x05) = true ∧
      answers (exec .rdCtr (fillUnit 4 3)) (fun t => t.rdata == 3) = true ∧
      answers (exec .rdStatus (mixpUnit 1 q1Next)) (fun t => t.rdata == 0x09) = true := by decide +kernel

/-- H2 to H6: refused while busy, the status word next read is 0x105. -/
theorem test_busy_refusals :
    answers (exec (.rdX 0) (fillUnit 4 2)) (fun t => decide (t.rdata = 0 ∧ t.statusWord = 0x105)) = true ∧
      answers (exec (.wrNcost 2) (fillUnit 4 2)) (fun t => decide (t.ncost = 4 ∧ t.statusWord = 0x105)) = true ∧
      answers (exec (.wrCmd 0) (fillUnit 4 2)) (fun t => decide (t.statusWord = 0x105)) = true ∧
      answers (exec (.wrX 0 0xDEADBEEF) (fillUnit 4 2)) (fun t => decide (t.x = k32 ∧ t.statusWord = 0x105)) = true ∧
      answers (exec .rdJidx (fillUnit 4 2)) (fun t => decide (t.rdata = 0 ∧ t.statusWord = 0x105)) = true := by
  decide +kernel

/-- R163 example, R162's: reads while idle. -/
theorem test_idle_reads :
    answers (exec (.rdX 5) (idleUnit 7)) (fun t => t.rdata == 5) = true ∧
      answers (exec .rdNcost (idleUnit 7)) (fun t => t.rdata == 7) = true ∧
      answers (exec .rdCmd { idleUnit 7 with cmdl := 4 }) (fun t => t.rdata == 4) = true ∧
      answers (exec .rdJidx { idleUnit 7 with jidx := 2 }) (fun t => t.rdata == 2) = true := by decide +kernel

/-- R167's example: any cost is stored; only the written word of X changes. -/
theorem test_idle_writes :
    answers (exec (.wrNcost 3) (idleUnit 7)) (fun t => t.ncost == 3) = true ∧
      answers (exec (.wrX 5 0x01020304) (idleUnit 7)) (fun t => decide (t.x[5] = 0x01020304 ∧ t.x[6] = 6)) = true := by
  decide +kernel

/-- H8, H9, H10, R170's examples. -/
theorem test_hosterr :
    answers (exec (.wrCtr 5) (idleUnit 7)) (fun t => decide (t.ctr = 0 ∧ t.hosterr = true)) = true ∧
      answers (exec (.wrJidx 5) (idleUnit 7)) (fun t => decide (t.jidx = 0 ∧ t.hosterr = true)) = true ∧
      answers (exec (.wrId 5) (idleUnit 7)) (fun t => decide (t.hosterr = true)) = true ∧
      answers (exec (.rdUnmapped98 0x26) { idleUnit 7 with done := true }) (fun t => t.statusWord == 0x102) = true ∧
      answers (exec (.wrStatus 0xFF) { idleUnit 7 with hosterr := true }) (fun t => t.hosterr) = true ∧
      answers (exec (.wrStatus 0x100) { idleUnit 7 with hosterr := true }) (fun t => !t.hosterr) = true := by
  decide +kernel

/-- R72: the other unmapped accesses. -/
theorem test_unmapped :
    answers (exec (.rdUnmappedA0 0x28) (idleUnit 7)) (fun t => decide (t.rdata = 0 ∧ t.hosterr = true)) = true ∧
      answers (exec (.rdUnmappedC0 0x3F) (idleUnit 7)) (fun t => decide (t.rdata = 0 ∧ t.hosterr = true)) = true ∧
      answers (exec (.wrUnmapped98 0x27 9) (idleUnit 7)) (fun t => decide (t = { idleUnit 7 with hosterr := true })) =
        true ∧
      answers (exec (.wrUnmappedA0 0x2F 9) (idleUnit 7)) (fun t => decide (t = { idleUnit 7 with hosterr := true })) =
        true ∧
      answers (exec (.wrUnmappedC0 0x30 9) (idleUnit 7)) (fun t => decide (t = { idleUnit 7 with hosterr := true })) =
        true := by decide +kernel

/-- R210 in the middle of a command. -/
theorem test_reset_abandons_command :
    answers (step (withTurn .reset (mixpUnit 1 q1Next))) (fun t => decide (t = State.reset)) = true := by decide +kernel

/-! ## Witnesses of the obligations' hypotheses -/

theorem test_witness_RotateLeftMovesEachBit :
    (1 ≤ 1 ∧ 1 ≤ 31 ∧ 0 < 32) ∧ (1 ≤ 31 ∧ 31 ≤ 31 ∧ 31 < 32) := by decide

theorem test_witness_UpdateWritesItsTargetOnly : (1 : Fin 16) ≠ 0 := by decide

theorem test_witness_TableLinesMayBeReordered :
    rowRound ∈ [columnRound, rowRound] ∧
      ((rowRound.drop (4 * (3 : Fin 4).val)).take 4).reverse.Perm ((rowRound.drop (4 * (3 : Fin 4).val)).take 4) := by
  decide

theorem test_witness_MixCoreOfConstantHalves :
    (∀ k : Fin 16, (Vector.replicate 16 (0 : Word))[k.val] = 0) ∧
      ∀ k : Fin 16, (Vector.replicate 16 (0x80000000 : Word))[k.val] = 0x80000000 := by decide

theorem test_witness_MixIndexIsBelowTheCost :
    (1 : Word).toNat = 2 ^ 0 ∧ (0x80000000 : Word).toNat = 2 ^ 31 := by decide

theorem test_witness_DecodeInvertsEncode :
    (Instr.rdUnmapped98 0x26).wellFormed = true ∧ (Instr.rdUnmapped98 0x27).wellFormed = true ∧
      (Instr.rdUnmappedA0 0x28).wellFormed = true ∧ (Instr.wrUnmappedA0 0x2F 1).wellFormed = true ∧
      (Instr.wrUnmappedC0 0x30 1).wellFormed = true ∧ (Instr.wrUnmappedC0 0x3F 1).wellFormed = true := by decide

theorem test_witness_BusRowsPartitionTheSelectors :
    (Instr.rdUnmapped98 0x26).row.width = 7 ∧ (Instr.rdUnmapped98 0x26).row.hits (0x26 : BitVec 7).toNat = true := by
  decide

theorem test_witness_IllegalWordsRaiseInvalidCommand :
    (idleUnit 2).phase = .idle ∧
      ((5 : Word).extractLsb' 0 8 ≠ 1 ∧ (5 : Word).extractLsb' 0 8 ≠ 2 ∧ (5 : Word).extractLsb' 0 8 ≠ 3 ∧
        (5 : Word).extractLsb' 0 8 ≠ 4) ∧
      (0x201 : Word).extractLsb' 9 23 ≠ 0 ∧ (0x80000004 : Word).extractLsb' 9 23 ≠ 0 ∧
      ((0x104 : Word).extractLsb' 0 8 = 4 ∧ (0x104 : Word).getLsbD 8 = true) ∧
      (0 : Word) ∉ [0x00000001#32, 0x00000101, 0x00000002, 0x00000102, 0x00000003, 0x00000004] := by decide

/-- The four clauses: the last mapped and the first unmapped index, a command, the engine's turn, the empty script. -/
theorem test_witness_StepRunsTheDecodedInstruction :
    ((withTurn (.access false 0x25 0) (idleUnit 2)).script = .access false 0x25 0 :: [] ∧
        decode (.bus (BitVec.ofBool false ++ 0x25#6) 0) = .ok .rdId) ∧
      ((withTurn (.access true 0x26 9) (idleUnit 2)).script = .access true 0x26 9 :: [] ∧
        decode (.bus (BitVec.ofBool true ++ 0x26#6) 9) = .ok (.wrUnmapped98 0x26 9)) ∧
      ((withTurn (.access true 0x21 4) (idleUnit 2)).script = .access true 0x21 4 :: [] ∧
        decode (.c 4) = .ok .romix) ∧
      ((withTurn .engine (fillUnit 2 0)).script = .engine :: [] ∧
        decode (.seq (withTurn .engine (fillUnit 2 0)).selector) = .ok .seqFill) ∧
      (singleUnit 0x101 k32).script = [] ∧ decode (.seq (singleUnit 0x101 k32).selector) = .ok .seqMix := by decide

theorem test_witness_PlacedWordsRunNext :
    decodeTableWord 32 0x00000001 = some (.mix 0) ∧ decodeTableWord 8 0x00 = some (.rdX 0) ∧
      decodeTableWord 8 0x7F = some (.wrUnmappedC0 0x3F 0) ∧ decodeTableWord 40 0x00 = some (.rdX 0) ∧
      decodeTableWord 40 0xFFFFFFFF7F = some (.wrUnmappedC0 0x3F 0xFFFFFFFF) ∧
      decodeTableWord 16 0x104 = some .seqFill ∧ decodeTableWord 16 0x204 = some .seqMixp ∧
      decodeTableWord 16 0x303 = some .seqBmix := by decide

theorem test_witness_CommandWriteChecksInOrder : (idleUnit 2).phase = .idle := by decide

/-- The smallest and the largest cost that `ROMIX` accepts. -/
theorem test_witness_CommandsAreAccepted :
    (idleUnit 2).phase = .idle ∧ (1 ≤ (idleUnit 2).cfg.log2NMax ∧ (idleUnit 2).ncost.toNat = 2 ^ 1) ∧
      (1 ≤ 10 ∧ 10 ≤ (idleUnit 0x400).cfg.log2NMax ∧ (idleUnit 0x400).ncost.toNat = 2 ^ 10) := by decide

/-- The cost 1 on the first clause, 2 * N_MAX on the second and third. -/
theorem test_witness_IllegalCostsAreRejected :
    (∃ t, exec .romix (idleUnit 0x800) = .next t ∧
        decide (t.err = .allocationFailure ∧ (idleUnit 0x800).err ≠ .allocationFailure) = true) ∧
      (idleUnit 1).phase = .idle ∧ (¬ ∃ e : Nat, 1 ≤ e ∧ (idleUnit 1).ncost.toNat = 2 ^ e) ∧
      (idleUnit 0x800).ncost.toNat = 2 ^ 11 ∧ (idleUnit 0x800).cfg.log2NMax < 11 := by
  refine ⟨next_of_answers (by decide +kernel), by decide, ?_, by decide, by decide⟩
  rintro ⟨e, h1, h⟩
  have h2 : 2 ^ 1 ≤ 2 ^ e := Nat.pow_le_pow_right (by decide) h1
  have h3 : (idleUnit 1).ncost.toNat = 1 := by decide
  omega

theorem test_witness_LegalCostsAreThePowersOfTwo : (idleUnit 2).phase = .idle := by decide

theorem test_witness_SingleCommandsRunToCompletion : (idleUnit 2).phase = .idle ∧ (idleUnit 2).script = [] := by decide

theorem test_witness_BmixEqualsTwoXmix : (idleUnit 2).phase = .idle := by decide

theorem test_witness_MixHalvesCommute : (idleUnit 2).phase = .idle := by decide

/-- Equal halves, and a zero second half. -/
theorem test_witness_XmixOfEqualAndZeroHalves :
    State.reset.phase = .idle ∧ getHalf 0 State.reset.x = getHalf (otherHalf 0) State.reset.x ∧
      getHalf (otherHalf 0) (setHalf 0 e0 State.reset.x) = Vector.replicate 16 0 := by decide +kernel

theorem test_witness_SeqMixEffect : ∀ h : Fin 2,
    (singleUnit (cmdWord 1 h) k32).phase = .single ∧ (singleUnit (cmdWord 1 h) k32).cmdl.extractLsb' 0 8 = 1 ∧
      ((singleUnit (cmdWord 1 h) k32).cmdl.extractLsb' 8 1).toNat = h.val := by decide

theorem test_witness_SeqXmixEffect : ∀ h : Fin 2,
    (singleUnit (cmdWord 2 h) k32).phase = .single ∧ (singleUnit (cmdWord 2 h) k32).cmdl.extractLsb' 0 8 = 2 ∧
      ((singleUnit (cmdWord 2 h) k32).cmdl.extractLsb' 8 1).toNat = h.val := by decide

theorem test_witness_SeqBmixEffect :
    (singleUnit 3 k32).phase = .single ∧ (singleUnit 3 k32).cmdl.extractLsb' 0 8 = 3 := by decide

/-- The first block, and the last of the space. -/
theorem test_witness_SeqFillEffect :
    (fillUnit 2 0).phase = .fill ∧ (fillUnit 2 0).cmdl.extractLsb' 0 8 = 4 ∧
      (fillUnit 2 0).ctr.toNat < 2 ^ (fillUnit 2 0).cfg.log2NMax ∧
      (fillUnit 0x400 0x3FF).ctr.toNat < 2 ^ (fillUnit 0x400 0x3FF).cfg.log2NMax := by decide

theorem test_witness_SeqMixpEffect :
    (mixpUnit 0 q1Start).phase = .mixp ∧ (mixpUnit 0 q1Start).cmdl.extractLsb' 0 8 = 4 ∧
      ((mixpUnit 0 q1Start).x[(mixpUnit 0 q1Start).cfg.idxWord.val] &&& ((mixpUnit 0 q1Start).ncost - 1)).toNat <
        2 ^ (mixpUnit 0 q1Start).cfg.log2NMax ∧
      ∀ n : Fin 128, readByte (mixpUnit 0 q1Start).v
        (blockAddr ((mixpUnit 0 q1Start).x[(mixpUnit 0 q1Start).cfg.idxWord.val] &&&
          ((mixpUnit 0 q1Start).ncost - 1)).toNat + n.val) = some (encodeBlock b1)[n.val] := by decide +kernel

/-- One state for each clause. -/
theorem test_witness_EngineStepsStopByName :
    (idleUnit 2).selector ≠ 0x104 ∧ (idleUnit 2).selector ≠ 0x303 ∧
      ((fillUnit 0x800 0x400).selector = 0x104 ∧
        2 ^ (fillUnit 0x800 0x400).cfg.log2NMax ≤ (fillUnit 0x800 0x400).ctr.toNat) ∧
      ({ mixpUnit 0 q1Start with x := Vector.replicate 32 0x400, ncost := 0x800 }.selector = 0x204 ∧
        2 ^ (mixpUnit 0 q1Start).cfg.log2NMax ≤ (index 31 (Vector.replicate 32 0x400) 0x800).toNat) ∧
      ({ mixpUnit 0 q1Start with v := [] }.selector = 0x204 ∧ (index 31 q1Start 2).toNat < 2 ^ 10 ∧
        readByte [] (blockAddr (index 31 q1Start 2).toNat + (0 : Fin 128).val) = none) ∧
      ((idleUnit 2).script = [] ∧ (idleUnit 2).phase = .idle) ∧
      ((withTurn .engine (singleUnit 4 k32)).script = .engine :: [] ∧
        (withTurn .engine (singleUnit 4 k32)).phase ≠ .idle ∧
        (withTurn .engine (singleUnit 4 k32)).selector ∉ [0x104#10, 0x204#10, 0x301#10, 0x302#10, 0x303#10]) := by
  decide +kernel

theorem test_witness_idle : (idleUnit 2).phase = .idle := by decide

theorem test_witness_busy :
    (fillUnit 2 0).phase ≠ .idle ∧ (mixpUnit 0 q1Start).phase ≠ .idle ∧ (singleUnit 1 k32).phase ≠ .idle := by
  decide +kernel

theorem test_witness_IdleReadsReturnTheRegister : (idleUnit 2).phase = .idle := test_witness_idle

theorem test_witness_IdleWritesStoreTheValue : (idleUnit 2).phase = .idle ∧ (31 : Fin 32) ≠ 0 := by decide

theorem test_witness_BusyReadsAreRefused : (fillUnit 2 0).phase ≠ .idle := test_witness_busy.1

theorem test_witness_BusyWritesAreRefused : (singleUnit 1 k32).phase ≠ .idle := test_witness_busy.2.2

/-- The first and the last unmapped index. -/
theorem test_witness_UnmappedAccessesAreRefused :
    (0x26 ≤ (0x26 : BitVec 6).toNat ∧
        (withTurn (.access false 0x26 0) (idleUnit 2)).script = .access false 0x26 0 :: []) ∧
      (0x26 ≤ (0x3F : BitVec 6).toNat ∧
        (withTurn (.access true 0x3F 9) (fillUnit 2 0)).script = .access true 0x3F 9 :: []) := by decide

theorem test_witness_OnlyFillChangesTheScratch :
    ∃ t, exec .seqMixp (mixpUnit 0 q1Start) = .next t ∧ Instr.seqMixp ≠ .seqFill :=
  let ⟨t, h, _⟩ := next_of_answers (o := exec .seqMixp (mixpUnit 0 q1Start)) (p := fun _ => true) (by decide +kernel)
  ⟨t, h, by decide⟩

/-- The first and last block of the space, the first outside it, and a step that changes the scratch. -/
theorem test_witness_ScratchReturnsTheBlockWritten :
    (0 < State.reset.cfg.nMax ∧ 1023 < State.reset.cfg.nMax ∧ 1023 ≠ 0) ∧ State.reset.cfg.nMax ≤ 1024 ∧
      ∃ t, exec .seqFill (fillUnit 2 0) = .next t ∧ decide (t.v ≠ (fillUnit 2 0).v) = true :=
  ⟨by decide, by decide, next_of_answers (by decide +kernel)⟩

/-- A step for each clause. -/
theorem test_witness_EachRegisterHasItsWriters :
    (∃ t, exec (.wrX 0 9) (idleUnit 2) = .next t ∧ decide (t.x ≠ (idleUnit 2).x) = true) ∧
      (∃ t, exec (.wrNcost 9) (idleUnit 2) = .next t ∧ decide (t.ncost ≠ (idleUnit 2).ncost) = true) ∧
      (∃ t, exec .bmix (idleUnit 2) = .next t ∧ decide (t.cmdl ≠ (idleUnit 2).cmdl ∧ t.phase ≠ (idleUnit 2).phase) = true) ∧
      (∃ t, exec .seqMixp (mixpUnit 0 q1Start) = .next t ∧
        decide (t.jidx ≠ (mixpUnit 0 q1Start).jidx ∧ t.ctr ≠ (mixpUnit 0 q1Start).ctr) = true) ∧
      ∃ t, exec (.wrCmd 0) (idleUnit 2) = .next t ∧
        decide (t.err ≠ (idleUnit 2).err ∧ t.done ≠ (idleUnit 2).done) = true :=
  ⟨next_of_answers (by decide +kernel), next_of_answers (by decide +kernel), next_of_answers (by decide +kernel),
    next_of_answers (by decide +kernel), next_of_answers (by decide +kernel)⟩

theorem test_witness_HosterrRecordsRefusedAccesses :
    ∃ t, exec (.wrCtr 5) (idleUnit 2) = .next t ∧ t.hosterr = true := next_of_answers (by decide +kernel)

/-- A busy state that meets the invariant: the second fill step, one block written. -/
def lastFill : State := { fillUnit 2 1 with x := b1, v := memWrite [] 0 (encodeBlock k32) }

theorem test_lastFill_inv : lastFill.Inv where
  cfgWf := by decide
  memWf := by decide +kernel
  memRange := by decide +kernel
  busyFlags := fun _ => by decide
  loop := fun _ => by decide
  ctrZero := by decide
  single := by decide
  fillWritten := fun _ => by unfold State.blockWritten; decide +kernel
  mixpWritten := fun h => absurd h (by decide)

/-- A state in the mix phase that meets the invariant. -/
theorem test_mixpUnit_inv : (mixpUnit 1 q1Next).Inv where
  cfgWf := by decide
  memWf := by decide +kernel
  memRange := by decide +kernel
  busyFlags := fun _ => by decide +kernel
  loop := fun _ => by decide +kernel
  ctrZero := by decide +kernel
  single := by decide +kernel
  fillWritten := fun h => absurd h (by decide +kernel)
  mixpWritten := fun _ => by unfold State.blockWritten; decide +kernel

/-- An idle state that meets the invariant. -/
theorem test_idleUnit_inv : (idleUnit 2).Inv where
  cfgWf := by decide
  memWf := List.Pairwise.nil
  memRange := fun _ h => by cases h
  busyFlags := by decide
  loop := by decide
  ctrZero := fun _ => by decide
  single := by decide
  fillWritten := fun h => absurd h (by decide)
  mixpWritten := fun h => absurd h (by decide)

/-- The two rows of acceptance, and the row of rejection. -/
theorem test_witness_SequencerTransitions_commands :
    (idleUnit 2).Inv ∧
      (∃ t, exec .romix (idleUnit 2) = .next t ∧ decide (t.err = .none ∧ t.phase = .fill) = true) ∧
      (∃ t, exec (.xmix 1) (idleUnit 2) = .next t ∧ decide (t.err = .none ∧ t.phase = .single) = true) ∧
      ∃ t, exec (.wrCmd 0) (idleUnit 2) = .next t ∧ decide (t.err ≠ .none ∧ t.phase = .idle) = true :=
  ⟨test_idleUnit_inv, next_of_answers (by decide +kernel), next_of_answers (by decide +kernel),
    next_of_answers (by decide +kernel)⟩

/-- A step of the fill phase, and a reset, from states that meet the hypotheses. -/
theorem test_witness_SequencerTransitions :
    (lastFill.Inv ∧ ∃ t, exec .seqFill lastFill = .next t ∧ t.phase = .mixp) ∧
      ((mixpUnit 1 q1Next).Inv ∧ ∃ t, exec .seqMixp (mixpUnit 1 q1Next) = .next t ∧ t.phase = .idle) ∧
      (withTurn .reset lastFill).script = .reset :: [] ∧
      ∃ t, step (withTurn .engine lastFill) = .next t ∧ t.phase = .mixp := by
  have go {o : Host.Outcome State Fault Refusal} {p : Phase} (h : answers o (fun t => decide (t.phase = p)) = true) :
      ∃ t, o = .next t ∧ t.phase = p := by
    obtain ⟨t, ht, hp⟩ := next_of_answers h
    exact ⟨t, ht, by simpa using hp⟩
  exact ⟨⟨test_lastFill_inv, go (by decide +kernel)⟩, ⟨test_mixpUnit_inv, go (by decide +kernel)⟩, rfl,
    go (by decide +kernel)⟩

theorem test_witness_ResetClearsRegistersAndFlags : (withTurn .reset lastFill).script = .reset :: [] := rfl

theorem test_witness_ResetLeavesNoScratchValue :
    (withTurn .reset lastFill).script = .reset :: [] ∧ 0 < lastFill.cfg.nMax ∧ 1023 < lastFill.cfg.nMax := by decide

theorem test_witness_StepKeepsUnitInvariant : lastFill.Inv ∧ ∃ t, step lastFill = .next t ∧ (t.ctr == 0) = true :=
  ⟨test_lastFill_inv, next_of_answers (by decide +kernel)⟩

theorem test_witness_UnitNeverFaults : (mixpUnit 1 q1Next).Inv := test_mixpUnit_inv

theorem test_witness_HostCannotDisturbABusyUnit :
    (withTurn (.access true 0 9) (fillUnit 2 0)).phase ≠ .idle ∧
      (withTurn (.access true 0 9) (fillUnit 2 0)).script = .access true 0 9 :: [] := by decide

/-- Two busy units that agree on what a host may read, and differ in X, NCOST and JIDX. -/
theorem test_witness_BusyReadsRevealNoData :
    let s := withTurn (.access false 0 0) (fillUnit 2 0)
    let s' := withTurn (.access false 0 0) { fillUnit 4 0 with x := b1, jidx := 1 }
    s.phase ≠ .idle ∧ s'.phase = s.phase ∧ s'.ctr = s.ctr ∧ s'.done = s.done ∧ s'.err = s.err ∧
      s'.hosterr = s.hosterr ∧ s'.cfg = s.cfg ∧ s'.rdata = s.rdata ∧ s.script = .access false 0 0 :: [] ∧
      s'.script = .access false 0 0 :: [] ∧ s.x ≠ s'.x := by decide +kernel

theorem test_witness_HostHasNoPathToScratch :
    isEngineStep (.rdX 0) = false ∧ ∃ t, exec (.rdX 0) (idleUnit 2) = .next t ∧ (t.rdata == 0) = true :=
  ⟨by decide, next_of_answers (by decide +kernel)⟩

/-- The smallest and the largest cost. -/
theorem test_witness_RomixComputesTheRomixFunction :
    (idleUnit 2).phase = .idle ∧ (idleUnit 2).script = [] ∧ legalCost (idleUnit 2).cfg (idleUnit 2).ncost = true ∧
      legalCost (idleUnit 0x400).cfg (idleUnit 0x400).ncost = true := by decide

/-- Two refused accesses among the four turns of the engine. -/
theorem test_witness_RomixIsIndependentOfInterleaving :
    let turns : List Turn :=
      [.engine, .access true 0 9, .engine, .engine, .access false 0x22 0, .engine]
    (idleUnit 2).phase = .idle ∧ legalCost (idleUnit 2).cfg (idleUnit 2).ncost = true ∧ Turn.reset ∉ turns ∧
      turns.count .engine = 2 * (idleUnit 2).ncost.toNat ∧ turns.getLast? = some .engine := by decide

/-- `MIX 0` on two units that differ in a register the result does not depend on. -/
theorem test_witness_ResultsDependOnXAndNcostOnly :
    ∃ a a' t, exec (.wrCmd 1) (idleUnit 2) = .next a ∧ exec (.wrCmd 1) { idleUnit 2 with jidx := 1 } = .next a' ∧
      runSteps 1 a = .next t ∧ t.phase = .idle := by
  obtain ⟨a, ha, h⟩ := next_of_answers (o := exec (.wrCmd 1) (idleUnit 2))
    (p := fun a => answers (runSteps 1 a) fun t => decide (t.phase = .idle)) (by decide +kernel)
  obtain ⟨a', ha', _⟩ := next_of_answers (o := exec (.wrCmd 1) { idleUnit 2 with jidx := 1 }) (p := fun _ => true)
    (by decide +kernel)
  obtain ⟨t, ht, hp⟩ := next_of_answers h
  exact ⟨a, a', t, ha, ha', ht, by simpa using hp⟩

theorem test_witness_BlockTransfersLoadAndStoreX : (idleUnit 2).phase = .idle := by decide

/-- The least fuel for the smallest cost. -/
theorem test_witness_OneCallComputesTheRomixBlock :
    (idleUnit 2).phase = .idle ∧ legalCost (idleUnit 2).cfg 2 = true ∧ 2 * (2 : Word).toNat ≤ 4 := by decide

/-- The least fuel for the smallest cost; the illegal costs next to the two ends of the legal ones. -/
theorem test_witness_RomixnSetsTheCostRunsAndWaits :
    (idleUnit 0).phase = .idle ∧ (legalCost (idleUnit 0).cfg 2 = true ∧ 2 * (2 : Word).toNat ≤ 4) ∧
      legalCost (idleUnit 0).cfg 1 = false ∧ legalCost (idleUnit 0).cfg 0x800 = false := by decide

/-- LE1 through `STBLK`: `X[5] = 0x01020304` yields bytes 20 to 23 = 04 03 02 01. -/
theorem test_stblkBytes :
    (match stblkBytes { idleUnit 0 with x := k32.set 5 0x01020304 } with
      | .next (b, _) => decide (b[20] = 0x04 ∧ b[23] = 0x01)
      | .fault _ => false
      | .refused _ => false) = true := by decide +kernel

/-- P4's first call: `ROMIXN 3` is rejected, and `WAIT` ends at its first read, 0x12. -/
theorem test_romixn_rejected :
    (match romixn 0 3 (idleUnit 0) with
      | some u => decide (u.rdata = 0x12 ∧ u.ncost = 3 ∧ u.x[31] = 31)
      | none => false) = true := by decide +kernel

end Sys2Proof.Tests
end

/-!
SUPPORT. Noninterference: two units that run the same command (R3). `SameRun` relates states that agree on what the
engine reads: the working block, the cost, the configuration, where the sequencer stands, and the blocks of V that the
command itself has stored. Acceptance establishes it, every engine step keeps it, and it contains X.
-/

namespace Sys2Proof.Machine

/-! ## The scratch space below a bound -/

/-- A block read depends on the 128 bytes of the block only. -/
theorem memRead_congr {m m' : Memory} {a : Nat} (h : ∀ n : Fin 128, readByte m' (a + n.val) = readByte m (a + n.val)) :
    memRead m' a = memRead m a := by
  ext b
  simp only [memRead_eq_some, h]

/-- Reading block `j` depends on the configuration and on the bytes below any bound of blocks that includes `j`. -/
theorem scratchRead_congr {s s' : State} {j k : Nat} (hcfg : s'.cfg = s.cfg) (hj : j < k)
    (hv : ∀ b < blockAddr k, readByte s'.v b = readByte s.v b) : scratchRead s' j = scratchRead s j := by
  have hm : memRead s'.v (blockAddr j) = memRead s.v (blockAddr j) := by
    refine memRead_congr fun n => hv _ ?_
    simp only [blockAddr]
    omega
  simp only [scratchRead, hcfg, hm]

/-- Two memories that agree on the first `k` blocks agree on one more after the same block is written at `k`. -/
theorem readByte_memWrite_congr {m m' : Memory} {k : Nat} (bytes : Bytes128)
    (hv : ∀ b < blockAddr k, readByte m' b = readByte m b) :
    ∀ b < blockAddr (k + 1),
      readByte (memWrite m' (blockAddr k) bytes) b = readByte (memWrite m (blockAddr k) bytes) b := by
  intro b hb
  rw [readByte_memWrite, readByte_memWrite]
  split
  · rfl
  · refine hv b ?_
    simp only [blockAddr] at *
    omega

/-- The index is below a cost that is not zero (R145). -/
theorem index_lt (w : Fin 32) (x : Block) {n : Word} (hn : 0 < n.toNat) : (index w x n).toNat < n.toNat := by
  have hle : (index w x n).toNat ≤ (n - 1).toNat := by
    rw [index, BitVec.toNat_and]
    exact Nat.and_le_right
  have hsub : (n - 1).toNat = n.toNat - 1 := BitVec.toNat_sub_of_le (BitVec.le_def.2 hn)
  omega

/-! ## The write to `CMD` -/

theorem exec_wrCmd (w : Word) (s : State) : exec (.wrCmd w) s = .next (writeCmd w s) := rfl

/-- A write to `CMD` while IDLE: accepted where every check passes, else rejected with the failing check's code. -/
theorem writeCmd_of_idle {s : State} (w : Word) (hp : s.phase = .idle) :
    writeCmd w s = if acceptanceCheck w s = .none then s.accept w else s.raise (acceptanceCheck w s) := by
  rcases writeCmd_cases w s with ⟨hb, _⟩ | ⟨_, hc, e⟩ | ⟨_, hc, e⟩
  · exact absurd hp hb
  · rw [e, if_neg hc]
  · rw [e, if_pos hc]

/-! ## The engine's step of a unit with no turn pending -/

/-- With no turn pending, the step is the engine's: a step that goes on ran what the selector enables. -/
theorem step_next_of_script_nil {s t : State} (hs : s.script = []) (h : step s = .next t) :
    ∃ i, decodeSeq s.selector = .ok i ∧ exec i s = .next t := by
  have hpop : s.popTurn = s := by cases s; simp_all [State.popTurn]
  rw [step_engine (.inl hs), hpop] at h
  rcases fetchEncoding_seq s with ⟨i, hd, hf⟩ | ⟨e, _, hf⟩ <;> rw [hf] at h
  · exact ⟨i, hd, h⟩
  · simp [runFetched] at h

theorem step_of_decodeSeq {s : State} {i : Instr} (hs : s.script = []) (hd : decodeSeq s.selector = .ok i) :
    step s = exec i s := by
  simp only [step, fetch, hs, fetchEncoding, decode, hd, runFetched]

/-- An idle engine has no step (R26). -/
theorem busy_of_decodeSeq {s : State} {i : Instr} (hd : decodeSeq s.selector = .ok i) : s.phase ≠ .idle := by
  intro hp
  have hsel := selector_eq hp rfl
  have herr : ∀ o : BitVec 8, decodeSeq (Phase.idle.toBits ++ o) = .error .engineIdle := by decide +kernel
  rw [hsel, herr] at hd
  simp at hd

/-! ## The blocks a command has stored -/

/-- How many blocks of V, from block 0 on, the running command has stored: those before `CTR` in the fill phase, all of
them in the mix phase (R42 (f)). -/
def State.storedBlocks (s : State) : Nat :=
  match s.phase with
  | .fill => s.ctr.toNat
  | .mixp => s.ncost.toNat
  | .idle => 0
  | .single => 0

theorem blockAddr_mono {i j : Nat} (h : i ≤ j) : blockAddr i ≤ blockAddr j := Nat.mul_le_mul_left 128 h

theorem storedBlocks_afterFill_le (s : State) : s.afterFill.storedBlocks ≤ s.ctr.toNat + 1 := by
  by_cases hl : s.ctr.toNat + 1 = s.ncost.toNat
  · simp [State.storedBlocks, hl]
  · simpa [State.storedBlocks, hl] using Nat.mod_le _ _

theorem storedBlocks_afterMixp_le (s : State) : s.afterMixp.storedBlocks ≤ s.ncost.toNat := by
  by_cases hl : s.ctr.toNat + 1 = s.ncost.toNat <;> simp [State.storedBlocks, hl]

theorem storedBlocks_accept (s : State) (w : Word) : (s.accept w).storedBlocks = 0 := by
  rw [State.storedBlocks, State.accept_phase]
  split_ifs <;> rfl

/-! ## The relation -/

/-- Two units the engine cannot tell apart: `CMDL` and `CTR` count only while a command runs, and V only in the blocks
the command has stored. -/
structure SameRun (s s' : State) : Prop where
  cfg : s'.cfg = s.cfg
  x : s'.x = s.x
  ncost : s'.ncost = s.ncost
  phase : s'.phase = s.phase
  cmdl : s.phase ≠ .idle → s'.cmdl = s.cmdl
  ctr : s.phase ≠ .idle → s'.ctr = s.ctr
  stored : ∀ b < blockAddr s.storedBlocks, readByte s'.v b = readByte s.v b
  costPos : s.phase = .mixp → 0 < s.ncost.toNat
  script : s.script = []
  script' : s'.script = []

namespace SameRun

variable {s s' t : State}

theorem selector (h : SameRun s s') (hb : s.phase ≠ .idle) : s'.selector = s.selector := by
  simp only [State.selector, h.phase, h.cmdl hb]

/-- Two idle units of one configuration need to agree on X and NCOST only. -/
theorem of_idle (hp : s.phase = .idle) (hp' : s'.phase = .idle) (hs : s.script = []) (hs' : s'.script = [])
    (hcfg : s'.cfg = s.cfg) (hx : s'.x = s.x) (hn : s'.ncost = s.ncost) : SameRun s s' where
  cfg := hcfg
  x := hx
  ncost := hn
  phase := hp'.trans hp.symm
  cmdl := fun hb => absurd hp hb
  ctr := fun hb => absurd hp hb
  stored := by simp [State.storedBlocks, hp, blockAddr]
  costPos := by simp [hp]
  script := hs
  script' := hs'

/-- Two units that go idle with the same block. -/
theorem finish (h : SameRun s s') (x : Block) : SameRun { s with x := x }.finish { s' with x := x }.finish :=
  .of_idle rfl rfl h.script h.script' h.cfg rfl h.ncost

/-- The single commands (R118, R132, R133): the new block is made of X and of the half `CMDL` names. -/
theorem seqMix (h : SameRun s s') (he : execSeqMix s = .next t) :
    ∃ t', execSeqMix s' = .next t' ∧ SameRun t t' := by
  obtain ⟨hsel, rfl⟩ := execSeqMix_next he
  have hb : s.phase ≠ .idle := by simp [(selector_eq_iff (p := .single) (o := 1)).1 hsel]
  refine ⟨_, execSeqMix_enabled ((h.selector hb).trans hsel), ?_⟩
  simpa only [State.stepHalf, h.cmdl hb, h.x] using h.finish _

theorem seqXmix (h : SameRun s s') (he : execSeqXmix s = .next t) :
    ∃ t', execSeqXmix s' = .next t' ∧ SameRun t t' := by
  obtain ⟨hsel, rfl⟩ := execSeqXmix_next he
  have hb : s.phase ≠ .idle := by simp [(selector_eq_iff (p := .single) (o := 2)).1 hsel]
  refine ⟨_, execSeqXmix_enabled ((h.selector hb).trans hsel), ?_⟩
  simpa only [State.stepHalf, h.cmdl hb, h.x] using h.finish _

theorem seqBmix (h : SameRun s s') (he : execSeqBmix s = .next t) :
    ∃ t', execSeqBmix s' = .next t' ∧ SameRun t t' := by
  obtain ⟨hsel, rfl⟩ := execSeqBmix_next he
  have hb : s.phase ≠ .idle := by simp [(selector_eq_iff (p := .single) (o := 3)).1 hsel]
  refine ⟨_, execSeqBmix_enabled ((h.selector hb).trans hsel), ?_⟩
  simpa only [h.x] using h.finish _

/-- R143: both units store the same block, so one more block of V agrees. -/
theorem seqFill (h : SameRun s s') (he : execSeqFill s = .next t) :
    ∃ t', execSeqFill s' = .next t' ∧ SameRun t t' := by
  obtain ⟨hsel, hc, rfl⟩ := execSeqFill_next he
  have hp : s.phase = .fill := ((selector_eq_iff (o := 4)).1 hsel).1
  have hb : s.phase ≠ .idle := by simp [hp]
  have hctr := h.ctr hb
  have hv := readByte_memWrite_congr (encodeBlock s.x) (k := s.ctr.toNat)
    (by simpa only [State.storedBlocks, hp] using h.stored)
  refine ⟨_, execSeqFill_enabled ((h.selector hb).trans hsel) (by rwa [hctr, h.cfg]), ?_⟩
  rw [hctr, h.x]
  exact {
    cfg := by simp [h.cfg]
    x := by simp
    ncost := by simp [h.ncost]
    phase := by simp [h.ncost]
    cmdl := fun _ => by simp [h.cmdl hb]
    ctr := fun _ => by simp [h.ncost]
    stored := fun b hlt => by
      simpa using hv b (hlt.trans_le (blockAddr_mono (storedBlocks_afterFill_le _)))
    costPos := fun hmix => by
      have hlast : s.ctr.toNat + 1 = s.ncost.toNat := by simpa using hmix
      simp [← hlast]
    script := by simp [h.script]
    script' := by simp [h.script'] }

/-- R144, R145: the block read is one the fill phase stored, so both units read the same. -/
theorem seqMixp (h : SameRun s s') (he : execSeqMixp s = .next t) :
    ∃ t', execSeqMixp s' = .next t' ∧ SameRun t t' := by
  obtain ⟨hsel, y, hy, rfl⟩ := execSeqMixp_next he
  have hp : s.phase = .mixp := ((selector_eq_iff (o := 4)).1 hsel).1
  have hb : s.phase ≠ .idle := by simp [hp]
  have hctr := h.ctr hb
  have hv : ∀ b < blockAddr s.ncost.toNat, readByte s'.v b = readByte s.v b := by
    simpa only [State.storedBlocks, hp] using h.stored
  have hread : scratchRead s' (index s'.cfg.idxWord s'.x s'.ncost).toNat = .ok y := by
    rw [h.cfg, h.x, h.ncost, scratchRead_congr h.cfg (index_lt _ _ (h.costPos hp)) hv, hy]
  refine ⟨_, execSeqMixp_enabled ((h.selector hb).trans hsel) hread, ?_⟩
  exact {
    cfg := by simp [h.cfg]
    x := by simp [h.x]
    ncost := by simp [h.ncost]
    phase := by simp [hctr, h.ncost]
    cmdl := fun _ => by simp [h.cmdl hb]
    ctr := fun _ => by simp [hctr, h.ncost]
    stored := fun b hlt => by
      simpa using hv b (hlt.trans_le (blockAddr_mono (storedBlocks_afterMixp_le _)))
    costPos := fun _ => by simpa using h.costPos hp
    script := by simp [h.script]
    script' := by simp [h.script'] }

/-- Every engine step keeps the relation, and where one unit goes on so does the other. -/
theorem step_next (h : SameRun s s') (hs : step s = .next t) : ∃ t', step s' = .next t' ∧ SameRun t t' := by
  obtain ⟨i, hd, he⟩ := step_next_of_script_nil h.script hs
  have hd' : decodeSeq s'.selector = .ok i := by rw [h.selector (busy_of_decodeSeq hd), hd]
  rw [step_of_decodeSeq h.script' hd']
  rcases decodeSeq_cases s.selector with ⟨_, d⟩ | ⟨_, d⟩ | ⟨_, d⟩ | ⟨_, d⟩ | ⟨_, d⟩ | ⟨e, d⟩ <;>
    (rw [d] at hd; cases hd)
  · exact h.seqFill he
  · exact h.seqMixp he
  · exact h.seqMix he
  · exact h.seqXmix he
  · exact h.seqBmix he

theorem runSteps_next {n : Nat} (h : SameRun s s') (hr : runSteps n s = .next t) :
    ∃ t', runSteps n s' = .next t' ∧ SameRun t t' := by
  induction n generalizing s s' with
  | zero =>
    cases hr
    exact ⟨s', rfl, h⟩
  | succ n ih =>
    rw [runSteps] at hr ⊢
    split at hr
    · obtain ⟨u', hu', hsame⟩ := h.step_next ‹_›
      rw [hu']
      exact ih hsame hr
    · cases hr
    · cases hr

theorem acceptanceCheck_eq (h : SameRun s s') (w : Word) : acceptanceCheck w s' = acceptanceCheck w s := by
  simp only [acceptanceCheck, h.cfg, h.ncost]

/-- An accepted command has stored nothing yet, whatever V held. -/
theorem accept (h : SameRun s s') (w : Word) : SameRun (s.accept w) (s'.accept w) where
  cfg := h.cfg
  x := h.x
  ncost := h.ncost
  phase := rfl
  cmdl := fun _ => rfl
  ctr := fun _ => rfl
  stored := by simp [storedBlocks_accept, blockAddr]
  costPos := by simp [ite_eq_iff]
  script := h.script
  script' := h.script'

theorem raise (h : SameRun s s') (c : ErrCode) : SameRun (s.raise c) (s'.raise c) :=
  ⟨h.cfg, h.x, h.ncost, h.phase, h.cmdl, h.ctr, h.stored, h.costPos, h.script, h.script'⟩

/-- The acceptance checks read the word, the cost and the configuration (R97), so both units accept or both reject. -/
theorem writeCmd_idle (h : SameRun s s') (w : Word) (hp : s.phase = .idle) :
    SameRun (writeCmd w s) (writeCmd w s') := by
  rw [writeCmd_of_idle w hp, writeCmd_of_idle w (h.phase.trans hp), h.acceptanceCheck_eq w]
  split
  · exact h.accept w
  · exact h.raise _

end SameRun

/-- Settles O56: the two units are in the relation `SameRun` when the command is written, and stay in it. -/
theorem resultsDependOnXAndNcostOnly : Obligations.ResultsDependOnXAndNcostOnly := by
  intro w s s' a a' t n hp hp' hs hs' hcfg hx hn ha ha' hr ht
  rw [exec_wrCmd] at ha ha'
  cases ha
  cases ha'
  have hstart : SameRun s s' := .of_idle hp hp' hs hs' hcfg hx hn
  obtain ⟨t', hr', h⟩ := (hstart.writeCmd_idle w hp).runSteps_next hr
  exact ⟨t', hr', h.phase.trans ht, h.x⟩

end Sys2Proof.Machine

/-!
SUPPORT. The state of the unit and what may change it (`10_state.md`): the costs `ROMIX` accepts, what one turn runs,
what each access does to each register, the invariant, the sequencer, a busy unit and its host, and a `ROMIX` run under
any interleaving with the host.
-/

namespace Sys2Proof.Machine

/-! ## Command words and costs -/

/-- A word with no reserved bit is made of its opcode and its half select (R90). -/
theorem cmdWord_of_fields {w : Word} {o : BitVec 8} {h : Fin 2} (hr : cmdRsv w = 0) (ho : cmdOpc w = o)
    (hh : cmdH w = h) : cmdWord o h = w := by
  have hbit : BitVec.ofNat 1 (cmdH w).val = w.extractLsb' 8 1 := by
    rw [cmdH_val, BitVec.ofNat_toNat, BitVec.setWidth_eq]
  have high : w.extractLsb' 9 23 ++ w.extractLsb' 8 1 = w.extractLsb' 8 24 :=
    BitVec.extractLsb'_append_extractLsb'_eq_extractLsb' rfl
  have join : w.extractLsb' 8 24 ++ w.extractLsb' 0 8 = w.extractLsb' 0 32 :=
    BitVec.extractLsb'_append_extractLsb'_eq_extractLsb' rfl
  calc cmdWord o h = (cmdRsv w ++ w.extractLsb' 8 1) ++ cmdOpc w := by rw [hr, ho, ← hbit, hh]; rfl
    _ = w.extractLsb' 8 24 ++ cmdOpc w := congrArg (· ++ cmdOpc w) high
    _ = w := join.trans BitVec.extractLsb'_eq_self

/-- A legal word on `CMD` is the command it decodes to (R95, R101). -/
theorem exec_of_decodeC {w : Word} {i : Instr} (h : decodeC w = .ok i) (s : State) :
    exec i s = .next (writeCmd w s) := by
  have low {b : Fin 2} (hb : ¬b = 1) : b = 0 := by omega
  have same {v : Word} (hv : v = w) : exec (.wrCmd v) s = .next (writeCmd w s) := by rw [hv, exec_wrCmd]
  unfold decodeC at h
  split_ifs at h with hrsv h1 h2 h3 hH h4 hH <;> cases h <;> have hrsv := not_not.1 hrsv
  · exact same (cmdWord_of_fields hrsv h1 rfl)
  · exact same (cmdWord_of_fields hrsv h2 rfl)
  · exact same (cmdWord_of_fields hrsv h3 (low hH))
  · exact same (cmdWord_of_fields hrsv h4 (low hH))

/-- The test of R181 finds the powers of two. -/
theorem isPowerOfTwo_iff {n : Word} (hn : 1 ≤ n.toNat) : n &&& (n - 1) = 0 ↔ ∃ e : Nat, n.toNat = 2 ^ e := by
  have hsub : (n - 1).toNat = n.toNat - 1 := BitVec.toNat_sub_of_le (BitVec.le_def.2 hn)
  rw [← BitVec.toNat_inj, BitVec.toNat_and, hsub]
  exact Nat.and_sub_one_eq_zero_iff_isPowerOfTwo (by omega)

/-- `legalCost` as its three conditions (R13, R14, R97). -/
theorem legalCost_iff_bounds {c : Config} {n : Word} :
    legalCost c n = true ↔ 2 ≤ n.toNat ∧ n &&& (n - 1) = 0 ∧ n.toNat ≤ c.nMax := by
  simp only [legalCost, costIllegal, Bool.and_eq_true, Bool.not_eq_true', Bool.or_eq_false_iff,
    decide_eq_false_iff_not, decide_eq_true_eq, bne_eq_false_iff_eq, not_lt, and_assoc]
  exact Iff.rfl

theorem legalCost_pos {c : Config} {n : Word} (h : legalCost c n = true) : 0 < n.toNat :=
  Nat.zero_lt_of_lt (legalCost_iff_bounds.1 h).1

/-- The legal costs are the powers of two from `N_MIN` to `N_MAX` (R13, R14, R30). -/
theorem legalCost_iff {c : Config} {n : Word} :
    legalCost c n = true ↔ ∃ e : Nat, 1 ≤ e ∧ e ≤ c.log2NMax ∧ n.toNat = 2 ^ e := by
  rw [legalCost_iff_bounds, Config.nMax]
  constructor
  · rintro ⟨h2, hp, hmax⟩
    obtain ⟨e, he⟩ := (isPowerOfTwo_iff (by omega)).1 hp
    rw [he] at h2 hmax
    have h1 : 2 ^ 1 ≤ 2 ^ e := h2
    exact ⟨e, (Nat.pow_le_pow_iff_right (by decide)).1 h1, (Nat.pow_le_pow_iff_right (by decide)).1 hmax, he⟩
  · rintro ⟨e, h1, hmax, he⟩
    have h2 : 2 ^ 1 ≤ 2 ^ e := Nat.pow_le_pow_right (by decide) h1
    exact ⟨by omega, (isPowerOfTwo_iff (by omega)).2 ⟨e, he⟩, he ▸ Nat.pow_le_pow_right (by decide) hmax⟩

/-- All checks of R97 pass exactly on a legal word, which for `ROMIX` needs a legal cost. -/
theorem acceptanceCheck_eq_none {w : Word} {s : State} :
    acceptanceCheck w s = .none ↔ cmdIllegal w = false ∧ (cmdOpc w = 4 → legalCost s.cfg s.ncost = true) := by
  unfold acceptanceCheck legalCost
  split_ifs <;> simp_all

/-- The opcodes of legal words other than `ROMIX` (R92). -/
theorem cmdOpc_of_single {w : Word} (h : cmdIllegal w = false) (h4 : cmdOpc w ≠ 4) :
    cmdOpc w = 1 ∨ cmdOpc w = 2 ∨ cmdOpc w = 3 := by
  simp only [cmdIllegal, Bool.or_eq_false_iff, Bool.not_eq_false', Bool.or_eq_true, beq_iff_eq] at h
  obtain ⟨⟨hopc, _⟩, _⟩ := h
  tauto

/-- The word of `ROMIX` passes every check but the one on the cost. -/
theorem acceptanceCheck_romix {s : State} : acceptanceCheck 4 s = .none ↔ legalCost s.cfg s.ncost = true := by
  have hlegal : cmdIllegal 4 = false := by decide
  have hopc : cmdOpc 4 = 4 := by decide
  rw [acceptanceCheck_eq_none]
  exact ⟨fun h => h.2 hopc, fun h => ⟨hlegal, fun _ => h⟩⟩

theorem exec_romix (s : State) : exec .romix s = .next (writeCmd 4 s) := rfl

/-- R98 for `ROMIX`. -/
theorem exec_romix_of_legalCost {s : State} (hp : s.phase = .idle) (hcost : legalCost s.cfg s.ncost = true) :
    exec .romix s = .next (s.accept 4) := by
  rw [exec_romix, writeCmd_of_idle 4 hp, if_pos (acceptanceCheck_romix.2 hcost)]

/-- Settles O21: the legal costs as powers of two, and `ROMIX`'s only check that can fail is on the cost. -/
theorem legalCostsAreThePowersOfTwo : Obligations.LegalCostsAreThePowersOfTwo := by
  refine ⟨fun _ _ => legalCost_iff, fun s hp => ⟨_, exec_romix s, ?_⟩⟩
  rw [← legalCost_iff, ← acceptanceCheck_romix, writeCmd_of_idle 4 hp]
  by_cases hc : acceptanceCheck 4 s = .none
  · have hopc : cmdOpc 4 = 4 := by decide
    rw [if_pos hc, State.accept_err, State.accept_phase, if_pos hopc]
    exact ⟨iff_of_true rfl hc, iff_of_true rfl hc⟩
  · rw [if_neg hc, State.raise_err, State.raise_phase, hp]
    exact ⟨Iff.rfl, iff_of_false nofun hc⟩

/-! ## One turn -/

theorem popTurn_of_script {s : State} {u : Turn} {rest : List Turn} (h : s.script = u :: rest) :
    s.popTurn = { s with script := rest } := by
  rw [State.popTurn, h, List.tail_cons]

/-- On an empty script, and when the engine's turn comes first, a step runs what the selector enables. -/
theorem step_engine_of_decodeSeq {s : State} {i : Instr} (h : s.script = [] ∨ ∃ rest, s.script = .engine :: rest)
    (hd : decodeSeq s.selector = .ok i) : step s = exec i s.popTurn := by
  simp only [step_engine h, fetchEncoding, decode, hd, runFetched]

/-- A step that goes on ran one instruction with its turn gone from the script, or took a reset. -/
theorem step_next_cases {s t : State} (h : step s = .next t) :
    (∃ i, exec i s.popTurn = .next t) ∨ (∃ rest, s.script = .reset :: rest) ∧ t = s.popTurn.applyReset := by
  have engine (hs : s.script = [] ∨ ∃ rest, s.script = .engine :: rest) : ∃ i, exec i s.popTurn = .next t := by
    rw [step_engine hs] at h
    change runFetched (fetchEncoding (.seq s.popTurn.selector) s.popTurn) = .next t at h
    rcases fetchEncoding_seq s.popTurn with ⟨i, _, hf⟩ | ⟨e, _, hf⟩ <;> rw [hf] at h
    · exact ⟨i, h⟩
    · simp [runFetched] at h
  rcases hs : s.script with _ | ⟨_ | _ | _, rest⟩
  case nil => exact .inl (engine (.inl hs))
  case cons.engine => exact .inl (engine (.inr ⟨rest, hs⟩))
  case cons.access we idx wdata =>
    rw [step_access hs] at h
    exact .inl ⟨_, by simpa only [popTurn_of_script hs] using h⟩
  case cons.reset =>
    rw [step_reset hs] at h
    cases h
    exact .inr ⟨⟨rest, rfl⟩, by rw [popTurn_of_script hs]⟩

/-- Settles O15: an access decodes as a bus access, a legal word on `CMD` is the command it decodes to,
and the engine's turn runs what the selector decodes to. -/
theorem stepRunsTheDecodedInstruction : Obligations.StepRunsTheDecodedInstruction := by
  refine ⟨?_, ?_, ?_, ?_⟩
  · intro s we idx wdata rest i hs hd
    cases hd
    exact step_access hs
  · intro s w rest i hs hd
    exact (step_access hs).trans (exec_of_decodeC hd _).symm
  · intro s rest i hs hd
    rw [step_engine_of_decodeSeq (.inr ⟨rest, hs⟩) hd, popTurn_of_script hs]
  · intro s i hs hd
    exact step_of_decodeSeq hs hd

/-! ## What an access does -/

theorem decide_phase_ne_idle (s : State) : decide (s.phase ≠ .idle) = s.busy := by
  cases hp : s.phase <;> simp [State.busy, hp]

/-- The writes that clear HOSTERR (R170). -/
def clearsHosterr (i : Instr) : Bool :=
  match i with
  | .wrStatus v => v.getLsbD 8
  | _ => false

/-- What a host access or a command does, by instruction: refused as R172's table says, or granted. -/
inductive AccessEffect (s : State) : Instr → State → Prop
  | refuseAccess {i : Instr} (refused : accessRefused i s.busy = true) : AccessEffect s i s.refuseAccess
  | refuseRead {i : Instr} (refused : accessRefused i s.busy = true) : AccessEffect s i s.refuseRead
  | returnRead {i : Instr} (w : Word) (granted : accessRefused i s.busy = false) (command : presentsCommand i = false)
      (clears : clearsHosterr i = false) : AccessEffect s i (s.returnRead w)
  | reject {i : Instr} (w : Word) (idle : s.phase = .idle) (command : presentsCommand i = true)
      (bad : acceptanceCheck w s ≠ .none) : AccessEffect s i (s.raise (acceptanceCheck w s))
  | accept {i : Instr} (w : Word) (idle : s.phase = .idle) (command : presentsCommand i = true)
      (good : acceptanceCheck w s = .none) : AccessEffect s i (s.accept w)
  | wrX (k : Fin 32) (v : Word) (idle : s.phase = .idle) : AccessEffect s (.wrX k v) (s.setX k v)
  | wrNcost (v : Word) (idle : s.phase = .idle) : AccessEffect s (.wrNcost v) { s with ncost := v }
  | clearHosterr (v : Word) (bit : v.getLsbD 8 = true) : AccessEffect s (.wrStatus v) { s with hosterr := false }
  | keepHosterr (v : Word) (bit : v.getLsbD 8 = false) : AccessEffect s (.wrStatus v) s

/-- The commands' rows of R172: refused exactly while BUSY. -/
theorem accessRefused_of_presentsCommand {i : Instr} (h : presentsCommand i = true) (b : Bool) :
    accessRefused i b = b := by
  cases i with
  | mix | xmix | bmix | romix | wrCmd => rfl
  | _ => cases h

theorem clearsHosterr_of_presentsCommand {i : Instr} (h : presentsCommand i = true) : clearsHosterr i = false := by
  cases i with
  | mix | xmix | bmix | romix | wrCmd => rfl
  | _ => cases h

theorem clearsHosterr_of_isEngineStep {i : Instr} (h : isEngineStep i = true) : clearsHosterr i = false := by
  cases i with
  | seqFill | seqMixp | seqMix | seqXmix | seqBmix => rfl
  | _ => cases h

theorem accessRefused_of_isEngineStep {i : Instr} (h : isEngineStep i = true) (b : Bool) :
    accessRefused i b = false := by
  cases i with
  | seqFill | seqMixp | seqMix | seqXmix | seqBmix => rfl
  | _ => cases h

theorem AccessEffect.writeCmd {i : Instr} (h : presentsCommand i = true) (w : Word) (s : State) :
    AccessEffect s i (writeCmd w s) := by
  rcases writeCmd_cases w s with ⟨hb, e⟩ | ⟨hi, hc, e⟩ | ⟨hi, hc, e⟩ <;> rw [e]
  · exact .refuseAccess (by rw [accessRefused_of_presentsCommand h, busy_eq_true]; exact hb)
  · exact .reject w hi h hc
  · exact .accept w hi h hc

/-- The gated reads: their row of R172 is X exactly while BUSY. -/
theorem AccessEffect.readWhenIdle {i : Instr} {s : State} (gated : accessRefused i s.busy = s.busy)
    (command : presentsCommand i = false) (clears : clearsHosterr i = false) (v : Word) :
    AccessEffect s i (readWhenIdle v s) := by
  rcases readWhenIdle_cases v s with ⟨hb, e⟩ | ⟨hi, e⟩ <;> rw [e]
  · exact .refuseRead (gated.trans (busy_eq_true.2 hb))
  · exact .returnRead v (gated.trans (busy_eq_false.2 hi)) command clears

/-- The gated writes. -/
theorem AccessEffect.writeWhenIdle {i : Instr} {s t : State} (gated : accessRefused i s.busy = s.busy)
    (h : s.phase = .idle → AccessEffect s i t) : AccessEffect s i (if s.busy then s.refuseAccess else t) := by
  split
  · exact .refuseAccess (gated.trans ‹_›)
  · exact h (by simpa using ‹¬ s.busy = true›)

/-- Every access goes on, with its effect. -/
theorem accessEffect_of_exec {i : Instr} (hi : isEngineStep i = false) (s : State) :
    ∃ t, exec i s = .next t ∧ AccessEffect s i t := by
  cases i with
  | seqFill | seqMixp | seqMix | seqXmix | seqBmix => cases hi
  | mix | xmix | bmix | romix | wrCmd => exact ⟨_, rfl, .writeCmd rfl _ s⟩
  | rdX | rdNcost | rdCmd | rdJidx => exact ⟨_, rfl, .readWhenIdle rfl rfl rfl _⟩
  | rdStatus | rdCtr | rdId => exact ⟨_, rfl, .returnRead _ rfl rfl rfl⟩
  | rdUnmapped98 | rdUnmappedA0 | rdUnmappedC0 => exact ⟨_, rfl, .refuseRead rfl⟩
  | wrCtr | wrJidx | wrId | wrUnmapped98 | wrUnmappedA0 | wrUnmappedC0 => exact ⟨_, rfl, .refuseAccess rfl⟩
  | wrX k v => exact ⟨_, rfl, .writeWhenIdle rfl (.wrX k v)⟩
  | wrNcost v => exact ⟨_, rfl, .writeWhenIdle rfl (.wrNcost v)⟩
  | wrStatus v =>
    refine ⟨_, rfl, ?_⟩
    by_cases hv : v.getLsbD 8 = true
    · rw [if_pos hv]; exact .clearHosterr v hv
    · rw [if_neg hv]; exact .keepHosterr v (by simpa using hv)

/-- What an instruction that goes on did: `exec_cases` with each access's effect. -/
theorem exec_next_cases {i : Instr} {s t : State} (h : exec i s = .next t) :
    (i = .seqFill ∧ s.phase = .fill ∧
        t = { s with
          v := memWrite s.v (blockAddr s.ctr.toNat) (encodeBlock s.x)
          x := blockMix s.x }.afterFill) ∨
      (i = .seqMixp ∧ s.phase = .mixp ∧ ∃ b,
        t = { s with jidx := index s.cfg.idxWord s.x s.ncost, x := blockMix (xor32v s.x b) }.afterMixp) ∨
      (isEngineStep i = true ∧ s.phase = .single ∧ ∃ x, t = { s with x := x }.finish) ∨
      (isEngineStep i = false ∧ AccessEffect s i t) := by
  rcases exec_cases h with ⟨hi, hs, _, ht⟩ | ⟨hi, hs, b, _, ht⟩ | ⟨hi, hp, x, ht⟩ | ⟨hi, _⟩
  · exact .inl ⟨hi, ((selector_eq_iff (o := 4)).1 hs).1, ht⟩
  · exact .inr (.inl ⟨hi, ((selector_eq_iff (o := 4)).1 hs).1, b, ht⟩)
  · exact .inr (.inr (.inl ⟨by rcases hi with rfl | rfl | rfl <;> rfl, hp, x, ht⟩))
  · obtain ⟨u, hu, he⟩ := accessEffect_of_exec hi s
    cases h.symm.trans hu
    exact .inr (.inr (.inr ⟨hi, he⟩))

/-! ## Registers and their writers -/

/-- Settles O43: engine steps and granted accesses are the only writers, and each names the register it writes. -/
theorem eachRegisterHasItsWriters : Obligations.EachRegisterHasItsWriters := by
  intro i s t h
  rcases exec_next_cases h with ⟨rfl, hp, rfl⟩ | ⟨rfl, hp, b, rfl⟩ | ⟨hi, hp, x, rfl⟩ | ⟨hi, he⟩
  · simp [isEngineStep]
  · simp [isEngineStep]
  · simp [hi]
  · cases he with
    | refuseAccess | refuseRead | returnRead | clearHosterr | keepHosterr => simp [hi]
    | reject w idle command | accept w idle command => simp [idle, command, hi]
    | wrX k v | wrNcost v => simp [hi]

/-- Settles O44: an access is refused exactly where R172 has an X, and of the others only `WR STATUS` clears it. -/
theorem hosterrRecordsRefusedAccesses : Obligations.HosterrRecordsRefusedAccesses := by
  intro i s t h
  rw [decide_phase_ne_idle]
  change t.hosterr = ((s.hosterr && !clearsHosterr i) || accessRefused i s.busy)
  rcases exec_next_cases h with ⟨rfl, hp, rfl⟩ | ⟨rfl, hp, b, rfl⟩ | ⟨hi, hp, x, rfl⟩ | ⟨hi, he⟩
  · simp [clearsHosterr, accessRefused]
  · simp [clearsHosterr, accessRefused]
  · rw [clearsHosterr_of_isEngineStep hi, accessRefused_of_isEngineStep hi]
    simp
  · cases he with
    | refuseAccess refused | refuseRead refused => simp [refused]
    | returnRead w granted command clears => simp [granted, clears]
    | reject w idle command | accept w idle command =>
      rw [clearsHosterr_of_presentsCommand command, accessRefused_of_presentsCommand command, busy_eq_false.2 idle]
      simp
    | wrX k v idle | wrNcost v idle => simp [clearsHosterr, accessRefused, busy_eq_false.2 idle]
    | clearHosterr v bit | keepHosterr v bit => simp only [clearsHosterr, accessRefused, bit]; simp

/-! ## The invariant -/

/-- R27: below the cost the counter does not wrap. -/
theorem toNat_ctr_succ {s : State} (h : s.ctr.toNat < s.ncost.toNat) : (s.ctr + 1).toNat = s.ctr.toNat + 1 := by
  have := s.ncost.isLt
  rw [BitVec.toNat_add]
  exact Nat.mod_eq_of_lt (by simpa using by omega)

/-- Where `pc` goes after a FILL iteration (R143): to the next one, or after the last to the mix phase. -/
theorem pc_of_afterFill {s t : State} (ht : t = s.afterFill) (h : s.ctr.toNat < s.ncost.toNat) :
    (s.ctr.toNat + 1 < s.ncost.toNat ∧ t.phase = .fill ∧ t.ctr.toNat = s.ctr.toNat + 1) ∨
      (s.ctr.toNat + 1 = s.ncost.toNat ∧ t.phase = .mixp ∧ t.ctr = 0) := by
  subst ht
  rw [State.afterFill_phase, State.afterFill_ctr]
  by_cases hl : s.lastIteration = true
  · rw [if_pos hl, if_pos hl]
    exact .inr ⟨lastIteration_iff.1 hl, rfl, rfl⟩
  · rw [if_neg hl, if_neg hl]
    exact .inl ⟨lt_of_le_of_ne h (mt lastIteration_iff.2 hl), rfl, toNat_ctr_succ h⟩

/-- Where `pc` goes after a MIXP iteration (R144): to the next one, or after the last to IDLE. -/
theorem pc_of_afterMixp {s t : State} (ht : t = s.afterMixp) (h : s.ctr.toNat < s.ncost.toNat) :
    (s.ctr.toNat + 1 < s.ncost.toNat ∧ t.phase = .mixp ∧ t.ctr.toNat = s.ctr.toNat + 1 ∧ t.done = s.done) ∨
      (s.ctr.toNat + 1 = s.ncost.toNat ∧ t.phase = .idle ∧ t.ctr = 0 ∧ t.done = true) := by
  subst ht
  rw [State.afterMixp_phase, State.afterMixp_ctr, State.afterMixp_done]
  by_cases hl : s.lastIteration = true
  · rw [if_pos hl, if_pos hl, if_pos hl]
    exact .inr ⟨lastIteration_iff.1 hl, rfl, rfl, rfl⟩
  · rw [if_neg hl, if_neg hl, if_neg hl]
    exact .inl ⟨lt_of_le_of_ne h (mt lastIteration_iff.2 hl), rfl, toNat_ctr_succ h, rfl⟩

/-- Writing a block keeps every written byte written, and the block written is written. -/
theorem readByte_memWrite_isSome {m : Memory} {a k : Nat} (b : Bytes128)
    (h : ¬(a ≤ k ∧ k < a + 128) → (readByte m k).isSome) : (readByte (memWrite m a b) k).isSome := by
  rw [readByte_memWrite]
  split
  · rfl
  · exact h ‹_›

namespace State.Inv

variable {s t : State}

/-! What the invariant asks for in each phase, beside a configuration in range and V in its form inside the space. -/

section

variable (hcfg : t.cfg.wf = true) (hv : Memory.wf t.v) (hr : ∀ c ∈ t.v, c.1 < 128 * t.cfg.nMax)

include hcfg hv hr

theorem of_idle (hp : t.phase = .idle) (hc : t.ctr = 0) : t.Inv :=
  ⟨hcfg, hv, hr, fun h => absurd hp (busy_eq_true.1 h), by simp [hp], fun _ => hc, by simp [hp], by simp [hp],
    by simp [hp]⟩

theorem of_single (hp : t.phase = .single) (hc : t.ctr = 0) (hf : t.done = false ∧ t.err = .none)
    (ho : cmdOpc t.cmdl = 1 ∨ cmdOpc t.cmdl = 2 ∨ cmdOpc t.cmdl = 3) : t.Inv :=
  ⟨hcfg, hv, hr, fun _ => hf, by simp [hp], fun _ => hc, fun _ => ho, by simp [hp], by simp [hp]⟩

theorem of_fill (hp : t.phase = .fill) (hf : t.done = false ∧ t.err = .none)
    (hl : legalCost t.cfg t.ncost = true ∧ t.ctr.toNat < t.ncost.toNat ∧ cmdOpc t.cmdl = 4)
    (hw : ∀ i < t.ctr.toNat, t.blockWritten i) : t.Inv :=
  ⟨hcfg, hv, hr, fun _ => hf, fun _ => hl, by simp [hp], by simp [hp], fun _ => hw, by simp [hp]⟩

theorem of_mixp (hp : t.phase = .mixp) (hf : t.done = false ∧ t.err = .none)
    (hl : legalCost t.cfg t.ncost = true ∧ t.ctr.toNat < t.ncost.toNat ∧ cmdOpc t.cmdl = 4)
    (hw : ∀ i < t.ncost.toNat, t.blockWritten i) : t.Inv :=
  ⟨hcfg, hv, hr, fun _ => hf, fun _ => hl, by simp [hp], by simp [hp], by simp [hp], fun _ => hw⟩

end

/-- The invariant says nothing of the host's side: HOSTERR, the read data, the script. -/
theorem hostSide (h : s.Inv) (e : Bool) (d : Word) (ts : List Turn) :
    { s with hosterr := e, rdata := d, script := ts }.Inv :=
  ⟨h.cfgWf, h.memWf, h.memRange, h.busyFlags, h.loop, h.ctrZero, h.single, h.fillWritten, h.mixpWritten⟩

theorem popTurn (h : s.Inv) : s.popTurn.Inv := h.hostSide _ _ _

theorem applyReset (h : s.Inv) : s.applyReset.Inv := .of_idle h.cfgWf .nil nofun rfl rfl

/-- R98: an accepted command has its opcode and, for `ROMIX`, a legal cost; it has written no block yet. -/
theorem accept (h : s.Inv) {w : Word} (good : acceptanceCheck w s = .none) : (s.accept w).Inv := by
  obtain ⟨hlegal, hcost⟩ := acceptanceCheck_eq_none.1 good
  by_cases h4 : cmdOpc w = 4
  · exact .of_fill h.cfgWf h.memWf h.memRange (if_pos h4) ⟨rfl, rfl⟩ ⟨hcost h4, legalCost_pos (hcost h4), h4⟩ nofun
  · exact .of_single h.cfgWf h.memWf h.memRange (if_neg h4) rfl ⟨rfl, rfl⟩ (cmdOpc_of_single hlegal h4)

theorem of_hostEffect (h : s.Inv) (he : HostEffect s t) : t.Inv := by
  cases he with
  | refuseAccess | refuseRead | returnRead | clearHosterr | nothing => exact h.hostSide _ _ _
  | raise w idle | setX k v idle | setNcost v idle =>
    exact .of_idle h.cfgWf h.memWf h.memRange idle (h.ctrZero (.inl idle))
  | accept w idle good => exact h.accept good

theorem finish (h : s.Inv) (x : Block) : { s with x := x }.finish.Inv := .of_idle h.cfgWf h.memWf h.memRange rfl rfl

/-- R143: one more block written, and the loop goes on or its mix phase begins. -/
theorem seqFill (h : s.Inv) (hp : s.phase = .fill) {b : Bytes128} {x : Block}
    (ht : t = { s with v := memWrite s.v (blockAddr s.ctr.toNat) b, x := x }.afterFill) : t.Inv := by
  obtain ⟨hcost, hlt, hopc⟩ := h.loop (.inl hp)
  obtain ⟨_, _, hmax⟩ := legalCost_iff_bounds.1 hcost
  have range := memWrite_range (a := blockAddr s.ctr.toNat) (b := b) h.memRange (by simp only [blockAddr]; omega)
  have written : ∀ i < s.ctr.toNat + 1, t.blockWritten i := by
    intro i hi n
    rw [ht, State.afterFill_v]
    refine readByte_memWrite_isSome b fun hout => h.fillWritten hp i ?_ n
    simp only [blockAddr] at hout
    omega
  have hcfg : t.cfg.wf = true := by simpa [ht] using h.cfgWf
  have hv : Memory.wf t.v := by simpa [ht] using memWrite_wf h.memWf
  have hr : ∀ c ∈ t.v, c.1 < 128 * t.cfg.nMax := by simpa [ht] using range
  have hf : t.done = false ∧ t.err = .none := by simpa [ht] using h.busyFlags (by simp [hp])
  have hn : t.ncost = s.ncost := by simp [ht]
  have hl : legalCost t.cfg t.ncost = true := by simpa [ht] using hcost
  have ho : cmdOpc t.cmdl = 4 := by simpa [ht] using hopc
  rcases pc_of_afterFill ht hlt with ⟨hlt', hp', hc⟩ | ⟨hlast, hp', hc⟩
  · exact .of_fill hcfg hv hr hp' hf ⟨hl, by rwa [hc, hn], ho⟩ (by rwa [hc])
  · exact .of_mixp hcfg hv hr hp' hf ⟨hl, by rw [hc, hn]; exact legalCost_pos hcost, ho⟩
      (by rw [hn, ← hlast]; exact written)

/-- R144: the loop goes on, or the command ends. -/
theorem seqMixp (h : s.Inv) (hp : s.phase = .mixp) {j : Word} {x : Block}
    (ht : t = { s with jidx := j, x := x }.afterMixp) : t.Inv := by
  obtain ⟨hcost, hlt, hopc⟩ := h.loop (.inr hp)
  obtain ⟨hdone, herr⟩ := h.busyFlags (by simp [hp])
  have hcfg : t.cfg.wf = true := by simpa [ht] using h.cfgWf
  have hv : Memory.wf t.v := by simpa [ht] using h.memWf
  have hr : ∀ c ∈ t.v, c.1 < 128 * t.cfg.nMax := by simpa [ht] using h.memRange
  rcases pc_of_afterMixp ht hlt with ⟨hlt', hp', hc, hd⟩ | ⟨_, hp', hc, _⟩
  · have hn : t.ncost = s.ncost := by simp [ht]
    have hl : legalCost t.cfg t.ncost = true := by simpa [ht] using hcost
    have ho : cmdOpc t.cmdl = 4 := by simpa [ht] using hopc
    have he : t.err = .none := by simpa [ht] using herr
    have hw : ∀ i < t.ncost.toNat, t.blockWritten i := by simpa [ht, State.blockWritten] using h.mixpWritten hp
    exact .of_mixp hcfg hv hr hp' ⟨hd.trans hdone, he⟩ ⟨hl, by rwa [hc, hn], ho⟩ hw
  · exact .of_idle hcfg hv hr hp' hc

theorem of_exec (h : s.Inv) {i : Instr} (he : exec i s = .next t) : t.Inv := by
  rcases exec_cases he with ⟨_, hs, _, ht⟩ | ⟨_, hs, b, _, ht⟩ | ⟨_, _, x, rfl⟩ | ⟨_, he⟩
  · exact h.seqFill ((selector_eq_iff (o := 4)).1 hs).1 ht
  · exact h.seqMixp ((selector_eq_iff (o := 4)).1 hs).1 ht
  · exact h.finish x
  · exact h.of_hostEffect he

end State.Inv

/-- Settles O48: the unit is IDLE, with `CTR = 0` and nothing in V. -/
theorem unitInvariantHoldsAtReset : Obligations.UnitInvariantHoldsAtReset :=
  .of_idle (by decide) reset_memory_wf nofun rfl rfl

/-- Settles O49: taking the turn keeps the invariant, and so does what the turn brings. -/
theorem stepKeepsUnitInvariant : Obligations.StepKeepsUnitInvariant := by
  intro s t h hs
  rcases step_next_cases hs with ⟨i, he⟩ | ⟨_, rfl⟩
  · exact h.popTurn.of_exec he
  · exact h.popTurn.applyReset

/-! ## The sequencer -/

/-- Settles O45: each engine step moves `pc` as its iteration says, and of the accesses an accepted command alone. -/
theorem sequencerTransitions : Obligations.SequencerTransitions := by
  refine ⟨?_, ?_, ?_⟩
  · intro i s t h hx
    rcases exec_next_cases hx with ⟨rfl, hp, ht⟩ | ⟨rfl, hp, b, ht⟩ | ⟨hi, hp, x, rfl⟩ | ⟨hi, he⟩
    · obtain ⟨_, hlt, _⟩ := h.loop (.inl hp)
      rcases pc_of_afterFill ht hlt with ⟨hl, hp', hc⟩ | ⟨hl, hp', hc⟩
      · exact .inr (.inr (.inr (.inl ⟨hp, rfl, hl, hp', hc⟩)))
      · exact .inr (.inr (.inr (.inr (.inl ⟨hp, rfl, hl, hp', hc⟩))))
    · obtain ⟨_, hlt, _⟩ := h.loop (.inr hp)
      rcases pc_of_afterMixp ht hlt with ⟨hl, hp', hc, _⟩ | ⟨hl, hp', hc, _⟩
      · exact .inr (.inr (.inr (.inr (.inr (.inl ⟨hp, rfl, hl, hp', hc⟩)))))
      · exact .inr (.inr (.inr (.inr (.inr (.inr ⟨hp, rfl, hl, hp', hc⟩)))))
    · exact .inr (.inr (.inl ⟨hp, h.ctrZero (.inr hp), hi, rfl, rfl⟩))
    · cases he with
      | refuseAccess refused | refuseRead refused =>
        refine .inl ⟨hi, fun command idle => ?_, rfl, rfl⟩
        rw [accessRefused_of_presentsCommand command, busy_eq_true] at refused
        exact absurd idle refused
      | returnRead w granted command =>
        exact .inl ⟨hi, by simp [command], rfl, rfl⟩
      | reject w idle command bad => exact .inl ⟨hi, fun _ _ => bad, rfl, rfl⟩
      | wrX | wrNcost | clearHosterr | keepHosterr => exact .inl ⟨hi, nofun, rfl, rfl⟩
      | accept w idle command good =>
        refine .inr (.inl ⟨idle, h.ctrZero (.inl idle), command, rfl, rfl, ?_⟩)
        by_cases h4 : cmdOpc w = 4
        · exact .inl ⟨h4, if_pos h4⟩
        · exact .inr ⟨cmdOpc_of_single (acceptanceCheck_eq_none.1 good).1 h4, if_neg h4⟩
  · intro s rest hs
    exact ⟨_, step_reset hs, rfl, rfl⟩
  · intro s t hs
    rcases step_next_cases hs with h | ⟨h, _⟩
    · exact .inl h
    · exact .inr h

/-! ## A busy unit and its host -/

/-- R160: on a busy unit every host access ends in an effect on HOSTERR and the read data only. -/
theorem HostEffect.of_busy {s t : State} (he : HostEffect s t) (hb : s.phase ≠ .idle) :
    t = { s with hosterr := t.hosterr, rdata := t.rdata } := by
  cases he with
  | refuseAccess | refuseRead | returnRead | clearHosterr | nothing => rfl
  | raise _ idle | accept _ idle | setX _ _ idle | setNcost _ idle => exact absurd idle hb

/-- Settles O51: the access runs as one instruction, which is no engine step. -/
theorem hostCannotDisturbABusyUnit : Obligations.HostCannotDisturbABusyUnit := by
  intro s we idx wdata rest hb hs
  obtain ⟨t, ht, he⟩ := exec_host' (decodeBus_isEngineStep (BitVec.ofBool we ++ idx) wdata) { s with script := rest }
  exact ⟨t, (step_access hs).trans ht, he.of_busy hb⟩

/-- Two units that look alike to a host while BUSY: they agree on what `STATUS`, `CTR` and `ID` show, and on the read
data. -/
structure LookAlike (s s' : State) : Prop where
  phase : s'.phase = s.phase
  ctr : s'.ctr = s.ctr
  done : s'.done = s.done
  err : s'.err = s.err
  hosterr : s'.hosterr = s.hosterr
  cfg : s'.cfg = s.cfg
  rdata : s'.rdata = s.rdata

namespace LookAlike

variable {s s' : State}

theorem refuseAccess (h : LookAlike s s') : LookAlike s.refuseAccess s'.refuseAccess := { h with hosterr := rfl }

theorem refuseRead (h : LookAlike s s') : LookAlike s.refuseRead s'.refuseRead :=
  { h with hosterr := rfl, rdata := rfl }

theorem returnRead (h : LookAlike s s') {w w' : Word} (hw : w' = w) : LookAlike (s.returnRead w) (s'.returnRead w') :=
  { h with rdata := hw }

theorem clearHosterr (h : LookAlike s s') : LookAlike { s with hosterr := false } { s' with hosterr := false } :=
  { h with hosterr := rfl }

theorem statusWord (h : LookAlike s s') : s'.statusWord = s.statusWord := by
  simp only [State.statusWord, State.busy, h.phase, h.done, h.err, h.hosterr]

theorem idWord (h : LookAlike s s') : s'.idWord = s.idWord := by simp only [State.idWord, h.cfg]

/-- R163, R169: what a busy unit refuses it refuses whatever the register holds. -/
theorem exec_busy (h : LookAlike s s') (hb : s.phase ≠ .idle) {i : Instr} (hi : isEngineStep i = false) :
    ∃ t t', exec i s = .next t ∧ exec i s' = .next t' ∧ LookAlike t t' := by
  have b : s.busy = true := busy_eq_true.2 hb
  have b' : s'.busy = true := busy_eq_true.2 (h.phase ▸ hb)
  have write (t t' : State) :
      LookAlike (if s.busy then s.refuseAccess else t) (if s'.busy then s'.refuseAccess else t') := by
    rw [if_pos b, if_pos b']; exact h.refuseAccess
  have read (w w' : Word) : LookAlike (readWhenIdle w s) (readWhenIdle w' s') := by
    rw [readWhenIdle, readWhenIdle, if_pos b, if_pos b']; exact h.refuseRead
  cases i with
  | seqFill | seqMixp | seqMix | seqXmix | seqBmix => cases hi
  | mix | xmix | bmix | romix | wrCmd | wrX | wrNcost => exact ⟨_, _, rfl, rfl, write _ _⟩
  | rdX | rdNcost | rdCmd | rdJidx => exact ⟨_, _, rfl, rfl, read _ _⟩
  | rdStatus => exact ⟨_, _, rfl, rfl, h.returnRead h.statusWord⟩
  | rdCtr => exact ⟨_, _, rfl, rfl, h.returnRead h.ctr⟩
  | rdId => exact ⟨_, _, rfl, rfl, h.returnRead h.idWord⟩
  | rdUnmapped98 | rdUnmappedA0 | rdUnmappedC0 => exact ⟨_, _, rfl, rfl, h.refuseRead⟩
  | wrCtr | wrJidx | wrId | wrUnmapped98 | wrUnmappedA0 | wrUnmappedC0 => exact ⟨_, _, rfl, rfl, h.refuseAccess⟩
  | wrStatus v =>
    refine ⟨_, _, rfl, rfl, ?_⟩
    split
    · exact h.clearHosterr
    · exact h

end LookAlike

/-- Settles O52: the access runs as one instruction in both units, which look alike before and so after it. -/
theorem busyReadsRevealNoData : Obligations.BusyReadsRevealNoData := by
  intro s s' we idx wdata rest rest' hb hphase hctr hdone herr hhost hcfg hrdata hs hs'
  have h : LookAlike { s with script := rest } { s' with script := rest' } :=
    ⟨hphase, hctr, hdone, herr, hhost, hcfg, hrdata⟩
  obtain ⟨t, t', ht, ht', hl⟩ := h.exec_busy hb (decodeBus_isEngineStep (BitVec.ofBool we ++ idx) wdata)
  exact ⟨t, t', (step_access hs).trans ht, (step_access hs').trans ht', hl.rdata, hl.hosterr⟩

/-! ## STATUS -/

/-- The layout of `STATUS` (R32), bit by bit. -/
theorem getLsbD_statusWord (s : State) (i : Nat) :
    s.statusWord.getLsbD i =
      if i = 0 then s.busy else if i = 1 then s.done else if i < 4 then s.phase.toBits.getLsbD (i - 2)
      else if i < 8 then s.err.toBits.getLsbD (i - 4) else if i = 8 then s.hosterr else false := by
  change BitVec.getLsbD (w := 23 + 1 + 4 + 2 + 1 + 1) (0#23 ++ BitVec.ofBool s.hosterr ++ s.err.toBits ++
    s.phase.toBits ++ BitVec.ofBool s.done ++ BitVec.ofBool s.busy) i = _
  simp only [BitVec.getLsbD_append, BitVec.getLsbD_ofBool, BitVec.getLsbD_zero]
  grind

theorem statusWord_phase (s : State) : s.statusWord.extractLsb' 2 2 = s.phase.toBits := by
  refine BitVec.eq_of_getLsbD_eq fun i hi => ?_
  rw [BitVec.getLsbD_extractLsb', getLsbD_statusWord]
  grind

theorem statusWord_err (s : State) : s.statusWord.extractLsb' 4 4 = s.err.toBits := by
  refine BitVec.eq_of_getLsbD_eq fun i hi => ?_
  rw [BitVec.getLsbD_extractLsb', getLsbD_statusWord]
  grind

theorem statusWord_reserved (s : State) : s.statusWord.extractLsb' 9 23 = 0 := by
  refine BitVec.eq_of_getLsbD_eq fun i hi => ?_
  rw [BitVec.getLsbD_extractLsb', getLsbD_statusWord]
  grind

/-- Settles O33: the fields are read off the layout of `STATUS`. -/
theorem statusFieldsStandInTheirBits : Obligations.StatusFieldsStandInTheirBits := by
  intro s
  refine ⟨_, rfl, ?_⟩
  rw [State.returnRead_rdata, decide_phase_ne_idle, getLsbD_statusWord, getLsbD_statusWord, getLsbD_statusWord,
    statusWord_phase, statusWord_err, statusWord_reserved]
  refine ⟨rfl, rfl, ?_, ?_, rfl, rfl⟩
  · cases s.phase <;> rfl
  · cases s.err <;> rfl

/-! ## A ROMIX run, one engine step after the other -/

/-- Words come back from their bytes (R62). -/
theorem decodeBytes_encodeBlock (b : Block) : decodeBytes (encodeBlock b) = b := by
  ext k hk : 1
  have byte (m : Nat) (hm : m < 4) : (encodeBlock b)[4 * k + m] = b[k].extractLsb' (8 * m) 8 := by
    have hdiv : (4 * k + m) / 4 = k := by omega
    have hmod : (4 * k + m) % 4 = m := by omega
    simp only [encodeBlock, Vector.getElem_ofFn, hdiv, hmod]
  have high : b[k].extractLsb' 24 8 ++ b[k].extractLsb' 16 8 = b[k].extractLsb' 16 16 :=
    BitVec.extractLsb'_append_extractLsb'_eq_extractLsb' rfl
  have mid : b[k].extractLsb' 16 16 ++ b[k].extractLsb' 8 8 = b[k].extractLsb' 8 24 :=
    BitVec.extractLsb'_append_extractLsb'_eq_extractLsb' rfl
  have low : b[k].extractLsb' 8 24 ++ b[k].extractLsb' 0 8 = b[k].extractLsb' 0 32 :=
    BitVec.extractLsb'_append_extractLsb'_eq_extractLsb' rfl
  rw [decodeBytes, Vector.getElem_ofFn]
  calc (encodeBlock b)[4 * k + 3] ++ (encodeBlock b)[4 * k + 2] ++ (encodeBlock b)[4 * k + 1] ++ (encodeBlock b)[4 * k]
      = b[k].extractLsb' 24 8 ++ b[k].extractLsb' 16 8 ++ b[k].extractLsb' 8 8 ++ b[k].extractLsb' 0 8 := by
        rw [byte 3 (by decide), byte 2 (by decide), byte 1 (by decide)]
        exact congrArg _ (byte 0 (by decide))
    _ = b[k].extractLsb' 16 16 ++ b[k].extractLsb' 8 8 ++ b[k].extractLsb' 0 8 :=
        congrArg (fun v => v ++ b[k].extractLsb' 8 8 ++ b[k].extractLsb' 0 8) high
    _ = b[k].extractLsb' 8 24 ++ b[k].extractLsb' 0 8 := congrArg (fun v => v ++ b[k].extractLsb' 0 8) mid
    _ = b[k] := low.trans BitVec.extractLsb'_eq_self

/-- A block read back after it was written (R65). -/
theorem scratchRead_memWrite {s t : State} {i : Nat} {b : Block} (hi : i < t.cfg.nMax)
    (hv : t.v = memWrite s.v (blockAddr i) (encodeBlock b)) : scratchRead t i = .ok b := by
  refine scratchRead_eq_ok.2 ⟨hi, encodeBlock b, memRead_eq_some.2 fun n => ?_, decodeBytes_encodeBlock b⟩
  rw [hv, readByte_memWrite, dif_pos ⟨by omega, by omega⟩]
  simp

/-- The mix phase with its last iteration taken apart. -/
theorem mixPhase_succ (w : Fin 32) (b : Block) (n : Word) (k : Nat) (x : Block) :
    mixPhase w b n (k + 1) x =
      blockMix (xor32v (mixPhase w b n k x) (blockMixIter (index w (mixPhase w b n k x) n).toNat b)) := by
  induction k generalizing x with
  | zero => rfl
  | succ k ih => rw [mixPhase, ih, mixPhase]

/-- The working block `k` engine steps into the `ROMIX` of `s`: `NCOST` fill iterations, then mix iterations (R141). -/
def State.romixBlock (s : State) (k : Nat) : Block :=
  match k with
  | 0 => s.x
  | k + 1 =>
    if k < s.ncost.toNat then blockMix (s.romixBlock k)
    else blockMix (xor32v (s.romixBlock k) (blockMixIter (index s.cfg.idxWord (s.romixBlock k) s.ncost).toNat s.x))

theorem romixBlock_fill (s : State) {k : Nat} (h : k ≤ s.ncost.toNat) : s.romixBlock k = blockMixIter k s.x := by
  induction k with
  | zero => rfl
  | succ k ih => rw [State.romixBlock, if_pos (Nat.lt_of_succ_le h), ih (by omega), blockMixIter]

theorem romixBlock_mixp (s : State) (k : Nat) :
    s.romixBlock (s.ncost.toNat + k) =
      mixPhase s.cfg.idxWord s.x s.ncost k (blockMixIter s.ncost.toNat s.x) := by
  induction k with
  | zero => exact romixBlock_fill s le_rfl
  | succ k ih => rw [← Nat.add_assoc, State.romixBlock, if_neg (by omega), ih, mixPhase_succ]

theorem runSteps_succ {s t : State} {n : Nat} (h : step s = .next t) : runSteps (n + 1) s = runSteps n t := by
  simp only [runSteps, h]

/-- `u` is the unit `s` taken `k` engine steps into its `ROMIX` (R143, R144), up to what the host may change meanwhile:
HOSTERR, the read data and the turns to come. -/
structure RomixAt (s : State) (k : Nat) (u : State) : Prop where
  cfg : u.cfg = s.cfg
  x : u.x = s.romixBlock k
  ncost : u.ncost = s.ncost
  cmdl : u.cmdl = 4
  phase : u.phase = if k < s.ncost.toNat then .fill else if k < 2 * s.ncost.toNat then .mixp else .idle
  ctr : u.ctr.toNat = if k < s.ncost.toNat then k else if k < 2 * s.ncost.toNat then k - s.ncost.toNat else 0
  jidx : u.jidx = if k ≤ s.ncost.toNat then s.jidx else index s.cfg.idxWord (s.romixBlock (k - 1)) s.ncost
  done : u.done = decide (2 * s.ncost.toNat ≤ k)
  err : u.err = .none
  stored : ∀ i, i < k → i < s.ncost.toNat → scratchRead u i = .ok (blockMixIter i s.x)
  above : ∀ b, blockAddr s.ncost.toNat ≤ b → readByte u.v b = readByte s.v b

namespace RomixAt

variable {s u : State} {k : Nat}

/-- Acceptance starts the run (R98). -/
theorem accept (hcost : legalCost s.cfg s.ncost = true) : RomixAt s 0 (s.accept 4) := by
  have hpos := legalCost_pos hcost
  exact {
    cfg := rfl
    x := rfl
    ncost := rfl
    cmdl := rfl
    phase := by rw [if_pos hpos]; rfl
    ctr := by rw [if_pos hpos]; rfl
    jidx := rfl
    done := (decide_eq_false (by omega)).symm
    err := rfl
    stored := nofun
    above := fun _ _ => rfl }

theorem hostSide (h : RomixAt s k u) (e : Bool) (d : Word) (ts : List Turn) :
    RomixAt s k { u with hosterr := e, rdata := d, script := ts } :=
  ⟨h.cfg, h.x, h.ncost, h.cmdl, h.phase, h.ctr, h.jidx, h.done, h.err, h.stored, h.above⟩

theorem busy (h : RomixAt s k u) (hk : k < 2 * s.ncost.toNat) : u.phase ≠ .idle := by
  rw [h.phase, if_pos hk]
  split <;> nofun

theorem selector (h : RomixAt s k u) {p : Phase} (hp : u.phase = p) : u.selector = p.toBits ++ 4#8 :=
  selector_eq hp (by rw [h.cmdl]; decide)

/-- R143: a fill iteration stores the block held before it. -/
theorem seqFill (h : RomixAt s k u) (hcost : legalCost s.cfg s.ncost = true) (hk : k < s.ncost.toNat) :
    ∃ t, execSeqFill u = .next t ∧ RomixAt s (k + 1) t ∧ t.script = u.script := by
  obtain ⟨_, _, hmax⟩ := legalCost_iff_bounds.1 hcost
  have hp : u.phase = .fill := by rw [h.phase, if_pos hk]
  have hc : u.ctr.toNat = k := by rw [h.ctr, if_pos hk]
  have hn := h.ncost
  obtain ⟨t, ht⟩ : ∃ t, t = { u with
      v := memWrite u.v (blockAddr u.ctr.toNat) (encodeBlock u.x), x := blockMix u.x }.afterFill := ⟨_, rfl⟩
  refine ⟨t, ?_, ?_, by simp [ht]⟩
  · rw [ht, execSeqFill_enabled (h.selector hp) (by rw [hc, h.cfg]; omega)]
  have hpc : (k + 1 < s.ncost.toNat ∧ t.phase = .fill ∧ t.ctr.toNat = k + 1) ∨
      (k + 1 = s.ncost.toNat ∧ t.phase = .mixp ∧ t.ctr = 0) := by
    simpa only [hc, hn] using pc_of_afterFill ht (by rw [hc, hn]; exact hk)
  have hv : t.v = memWrite u.v (blockAddr k) (encodeBlock (blockMixIter k s.x)) := by
    simp [ht, hc, h.x, romixBlock_fill s hk.le]
  have hcfg : t.cfg = s.cfg := by simp [ht, h.cfg]
  exact {
    cfg := hcfg
    x := by simp [ht, h.x, State.romixBlock, hk]
    ncost := by simp [ht, hn]
    cmdl := by simp [ht, h.cmdl]
    phase := by
      rcases hpc with ⟨hlt, hp', _⟩ | ⟨hlast, hp', _⟩ <;> rw [hp']
      · rw [if_pos hlt]
      · rw [if_neg (by omega), if_pos (by omega)]
    ctr := by
      rcases hpc with ⟨hlt, _, hc'⟩ | ⟨hlast, _, hc'⟩ <;> rw [hc']
      · rw [if_pos hlt]
      · rw [if_neg (by omega), if_pos (by omega), hlast, Nat.sub_self]; rfl
    jidx := by simp [ht, h.jidx, hk, hk.le]
    done := by
      rw [show t.done = u.done by simp [ht], h.done, decide_eq_false (by omega), decide_eq_false (by omega)]
    err := by simp [ht, h.err]
    stored := fun i hi hlt => by
      rcases Nat.lt_succ_iff_lt_or_eq.1 hi with hi | rfl
      · rw [← h.stored i hi hlt]
        refine scratchRead_congr (hcfg.trans h.cfg.symm) hi fun b hb => ?_
        rw [hv, readByte_memWrite, dif_neg (by omega)]
      · exact scratchRead_memWrite (by rw [hcfg]; omega) hv
    above := fun b hb => by
      rw [hv, readByte_memWrite, dif_neg (by simp only [blockAddr] at *; omega), h.above b hb] }

/-- R144: a mix iteration reads a block the fill phase stored; the last one ends the command. -/
theorem seqMixp (h : RomixAt s k u) (hN : s.ncost.toNat ≤ k) (hk : k < 2 * s.ncost.toNat) :
    ∃ t, execSeqMixp u = .next t ∧ RomixAt s (k + 1) t ∧ t.script = u.script := by
  have hp : u.phase = .mixp := by rw [h.phase, if_neg (by omega), if_pos hk]
  have hc : u.ctr.toNat = k - s.ncost.toNat := by rw [h.ctr, if_neg (by omega), if_pos hk]
  have hn := h.ncost
  have hlt : (index s.cfg.idxWord (s.romixBlock k) s.ncost).toNat < s.ncost.toNat := index_lt _ _ (by omega)
  have hread := h.stored _ (hlt.trans_le hN) hlt
  obtain ⟨t, ht⟩ : ∃ t, t = { u with
      jidx := index s.cfg.idxWord (s.romixBlock k) s.ncost
      x := s.romixBlock (k + 1) }.afterMixp := ⟨_, rfl⟩
  have he : execSeqMixp u = .next t := by
    rw [← h.cfg, ← h.x, ← hn] at hread
    rw [execSeqMixp_enabled (h.selector hp) hread, ht, State.romixBlock, if_neg (by omega), h.cfg, h.x, hn]
  have hpc : (k - s.ncost.toNat + 1 < s.ncost.toNat ∧ t.phase = .mixp ∧ t.ctr.toNat = k - s.ncost.toNat + 1 ∧
        t.done = u.done) ∨
      (k - s.ncost.toNat + 1 = s.ncost.toNat ∧ t.phase = .idle ∧ t.ctr = 0 ∧ t.done = true) := by
    simpa only [hc, hn] using pc_of_afterMixp ht (by rw [hc, hn]; omega)
  have hcfg : t.cfg = s.cfg := by simp [ht, h.cfg]
  have hv : t.v = u.v := by simp [ht]
  refine ⟨t, he, ?_, by simp [ht]⟩
  exact {
    cfg := hcfg
    x := by simp [ht]
    ncost := by simp [ht, hn]
    cmdl := by simp [ht, h.cmdl]
    phase := by
      rcases hpc with ⟨hl, hp', _⟩ | ⟨hl, hp', _⟩ <;> rw [hp', if_neg (by omega)]
      · rw [if_pos (by omega)]
      · rw [if_neg (by omega)]
    ctr := by
      rcases hpc with ⟨hl, _, hc', _⟩ | ⟨hl, _, hc', _⟩ <;> rw [hc', if_neg (by omega)]
      · rw [if_pos (by omega)]; omega
      · rw [if_neg (by omega)]; rfl
    jidx := by rw [if_neg (by omega)]; simp [ht]
    done := by
      rcases hpc with ⟨hl, _, _, hd⟩ | ⟨hl, _, _, hd⟩ <;> rw [hd]
      · rw [h.done, decide_eq_false (by omega), decide_eq_false (by omega)]
      · rw [decide_eq_true (by omega)]
    err := by simp [ht, h.err]
    stored := fun i _ hlt => by
      rw [← h.stored i (by omega) hlt]
      exact scratchRead_congr (hcfg.trans h.cfg.symm) hlt fun b _ => by rw [hv]
    above := fun b hb => by rw [hv, h.above b hb] }

/-- The engine's turn takes the run one step on (R99, R100). -/
theorem engineTurn (h : RomixAt s k u) (hcost : legalCost s.cfg s.ncost = true) (hk : k < 2 * s.ncost.toNat)
    (hs : u.script = [] ∨ ∃ rest, u.script = .engine :: rest) :
    ∃ t, step u = .next t ∧ RomixAt s (k + 1) t ∧ t.script = u.script.tail := by
  have hpop : RomixAt s k u.popTurn := h.hostSide _ _ _
  by_cases hN : k < s.ncost.toNat
  · have hsel : u.selector = 0x104 := h.selector (p := .fill) (by rw [h.phase, if_pos hN])
    rw [step_engine_of_decodeSeq (i := .seqFill) hs (by rw [hsel]; rfl)]
    exact hpop.seqFill hcost hN
  · have hsel : u.selector = 0x204 := h.selector (p := .mixp) (by rw [h.phase, if_neg hN, if_pos hk])
    rw [step_engine_of_decodeSeq (i := .seqMixp) hs (by rw [hsel]; rfl)]
    exact hpop.seqMixp (by omega) hk

/-- A host access leaves the run where it stands (R43). -/
theorem hostTurn (h : RomixAt s k u) (hk : k < 2 * s.ncost.toNat) {we : Bool} {idx : BitVec 6} {wdata : Word}
    {rest : List Turn} (hs : u.script = .access we idx wdata :: rest) :
    ∃ t, step u = .next t ∧ RomixAt s k t ∧ t.script = rest := by
  obtain ⟨t, ht, he⟩ := hostCannotDisturbABusyUnit u we idx wdata rest (h.busy hk) hs
  rw [he] at ht
  exact ⟨_, ht, h.hostSide _ _ _, rfl⟩

/-- R43: under any interleaving that ends with the engine's last turn, the run comes to its end. -/
theorem run (h : RomixAt s k u) (hcost : legalCost s.cfg s.ncost = true) {turns : List Turn} (hs : u.script = turns)
    (hreset : Turn.reset ∉ turns) (hcount : k + turns.count .engine = 2 * s.ncost.toNat)
    (hlast : ∀ x ∈ turns.getLast?, x = .engine) :
    ∃ t, runSteps turns.length u = .next t ∧ RomixAt s (2 * s.ncost.toNat) t ∧ t.script = [] := by
  induction turns generalizing k u with
  | nil =>
    rw [List.count_nil] at hcount
    exact ⟨u, rfl, hcount ▸ h, hs⟩
  | cons x rest ih =>
    have hmem : Turn.engine ∈ x :: rest := by
      rw [← hlast _ (List.getLast?_eq_getLast_of_ne_nil (List.cons_ne_nil x rest))]
      exact List.getLast_mem _
    have hk : k < 2 * s.ncost.toNat := by
      have := List.count_pos_iff.2 hmem
      omega
    have hreset' : Turn.reset ∉ rest := fun hm => hreset (List.mem_cons_of_mem x hm)
    have hlast' : ∀ y ∈ rest.getLast?, y = .engine := fun y hy => hlast y (by rw [List.getLast?_cons, hy]; rfl)
    cases x with
    | reset => exact absurd List.mem_cons_self hreset
    | engine =>
      obtain ⟨u', hu, h', hs'⟩ := h.engineTurn hcost hk (.inr ⟨rest, hs⟩)
      rw [List.count_cons_self] at hcount
      rw [List.length_cons, runSteps_succ hu]
      exact ih h' (by rw [hs', hs, List.tail_cons]) hreset' (by omega) hlast'
    | access we idx wdata =>
      obtain ⟨u', hu, h', hs'⟩ := h.hostTurn hk hs
      rw [List.count_cons_of_ne (show Turn.access we idx wdata ≠ .engine from nofun)] at hcount
      rw [List.length_cons, runSteps_succ hu]
      exact ih h' hs' hreset' hcount hlast'

/-- The state at the end of the run. -/
theorem eq_of_end (h : RomixAt s (2 * s.ncost.toNat) u) (hpos : 0 < s.ncost.toNat) (hp : s.phase = .idle) :
    u = { s with
      x := roMix s.cfg.idxWord s.x s.ncost
      v := u.v
      cmdl := 4
      jidx := index s.cfg.idxWord
        (mixPhase s.cfg.idxWord s.x s.ncost (s.ncost.toNat - 1) (blockMixIter s.ncost.toNat s.x)) s.ncost
      done := true
      err := .none
      ctr := 0
      hosterr := u.hosterr
      rdata := u.rdata
      script := u.script } := by
  have hx : u.x = roMix s.cfg.idxWord s.x s.ncost := by rw [h.x, two_mul, romixBlock_mixp, roMix]
  have hprev : 2 * s.ncost.toNat - 1 = s.ncost.toNat + (s.ncost.toNat - 1) := by omega
  have hjidx := h.jidx
  rw [if_neg (by omega), hprev, romixBlock_mixp] at hjidx
  have hphase := h.phase
  rw [if_neg (by omega), if_neg (lt_irrefl _), ← hp] at hphase
  have hctr := h.ctr
  rw [if_neg (by omega), if_neg (lt_irrefl _)] at hctr
  have hdone := h.done.trans (decide_eq_true le_rfl)
  have hcfg := h.cfg
  have hn := h.ncost
  have hcmdl := h.cmdl
  have herr := h.err
  cases u
  simp only [State.mk.injEq]
  exact ⟨hcfg, hx, trivial, hn, hcmdl, hphase, BitVec.eq_of_toNat_eq hctr, hjidx, hdone, herr, trivial, trivial,
    trivial⟩

end RomixAt

/-- Settles O55: acceptance starts a run, and any interleaving takes it to its end. -/
theorem romixIsIndependentOfInterleaving : Obligations.RomixIsIndependentOfInterleaving := by
  intro s turns hp hcost hreset hcount hlast
  have hstart : RomixAt s 0 { s.accept 4 with script := turns } := (RomixAt.accept hcost).hostSide _ _ _
  obtain ⟨t, hrun, hend, hscript⟩ := hstart.run hcost rfl hreset (by rw [hcount, Nat.zero_add])
    fun x hx => by rw [hlast] at hx; exact (Option.mem_some.1 hx).symm
  exact ⟨_, t, exec_romix_of_legalCost hp hcost, hrun, by rw [← hscript]; exact hend.eq_of_end (legalCost_pos hcost) hp⟩

end Sys2Proof.Machine

/-!
SUPPORT. The scratch memory and the register window (`20_memory.md`): the bytes of a block, a block read back after it is
written, that of all instructions only `SEQ.FILL` writes V, that no host access sees V, and the unmapped word indexes.
-/

namespace Sys2Proof.Machine

/-! ## The bytes of a block -/

/-- Four bytes put together, highest first, as a number. -/
theorem toNat_append_bytes (b₃ b₂ b₁ b₀ : Byte) :
    (b₃ ++ b₂ ++ b₁ ++ b₀).toNat =
      b₀.toNat + 2 ^ 8 * b₁.toNat + 2 ^ 16 * b₂.toNat + 2 ^ 24 * b₃.toNat := by
  rw [BitVec.toNat_append, BitVec.toNat_append, BitVec.toNat_append, ← Nat.shiftLeft_add_eq_or_of_lt b₂.isLt,
    ← Nat.shiftLeft_add_eq_or_of_lt b₁.isLt, ← Nat.shiftLeft_add_eq_or_of_lt b₀.isLt]
  omega

theorem toNat_getElem_decodeBytes (b : Bytes128) (k : Nat) (hk : k < 32) :
    (decodeBytes b)[k].toNat =
      b[4 * k].toNat + 2 ^ 8 * b[4 * k + 1].toNat + 2 ^ 16 * b[4 * k + 2].toNat + 2 ^ 24 * b[4 * k + 3].toNat := by
  rw [decodeBytes, Vector.getElem_ofFn]
  exact toNat_append_bytes _ _ _ _

theorem toNat_getElem_encodeBlock (x : Block) (k m : Nat) (hk : k < 32) (hm : m < 4) :
    (encodeBlock x)[4 * k + m].toNat = x[k].toNat >>> (8 * m) % 2 ^ 8 := by
  have hdiv : (4 * k + m) / 4 = k := by omega
  have hmod : (4 * k + m) % 4 = m := by omega
  simp only [encodeBlock, Vector.getElem_ofFn, hdiv, hmod, BitVec.extractLsb'_toNat]

/-- Bytes come back from their words (R62): byte `m` of a word is the byte it was put together from. -/
theorem encodeBlock_decodeBytes (b : Bytes128) : encodeBlock (decodeBytes b) = b := by
  have byte (k m : Nat) (hk : k < 32) (hm : m < 4) : (encodeBlock (decodeBytes b))[4 * k + m] = b[4 * k + m] := by
    apply BitVec.eq_of_toNat_eq
    rw [toNat_getElem_encodeBlock _ _ _ hk hm, toNat_getElem_decodeBytes, Nat.shiftRight_eq_div_pow]
    interval_cases m
    · change _ / 1 % _ = b[4 * k].toNat
      omega
    all_goals omega
  ext n hn : 1
  have hn' : 4 * (n / 4) + n % 4 = n := Nat.div_add_mod n 4
  simpa only [hn'] using byte (n / 4) (n % 4) (by omega) (by omega)

/-- Settles O8: both formulas as numbers, and each map undoes the other. -/
theorem blockBytesAreLittleEndian : Obligations.BlockBytesAreLittleEndian := by
  refine ⟨fun b k => toNat_getElem_decodeBytes b k.val k.isLt, fun x k m => ?_, decodeBytes_encodeBlock,
    encodeBlock_decodeBytes⟩
  rw [toNat_getElem_encodeBlock x k.val m.val k.isLt m.isLt]
  exact (Nat.and_two_pow_sub_one_eq_mod _ 8).symm

/-! ## The writer of V -/

theorem HostEffect.v_eq {s t : State} (h : HostEffect s t) : t.v = s.v := by
  cases h with
  | refuseAccess | refuseRead | returnRead | raise | accept | setX | setNcost | clearHosterr | nothing => rfl

/-- R61, R68: engine steps but `SEQ.FILL` keep V, and so does every host's effect. -/
theorem exec_keeps_v {i : Instr} {s t : State} (h : exec i s = .next t) (hi : i ≠ .seqFill) : t.v = s.v := by
  rcases exec_cases h with ⟨hfill, _⟩ | ⟨_, _, b, _, rfl⟩ | ⟨_, _, x, rfl⟩ | ⟨_, he⟩
  · exact absurd hfill hi
  · rw [State.afterMixp_v]
  · rfl
  · exact he.v_eq

/-- Settles O41: V is kept as a whole, so each of its bytes is. -/
theorem onlyFillChangesTheScratch : Obligations.OnlyFillChangesTheScratch := by
  intro i s t h hi
  have hv := exec_keeps_v h hi
  exact ⟨fun a => by rw [hv], hv⟩

/-! ## A block written -/

/-- R65, R67: the blocks do not overlap, so every other block reads as before. -/
theorem scratchRead_memWrite_of_ne (s : State) {i j : Nat} (hij : j ≠ i) (bytes : Bytes128) :
    scratchRead { s with v := memWrite s.v (blockAddr i) bytes } j = scratchRead s j := by
  have hm : memRead (memWrite s.v (blockAddr i) bytes) (blockAddr j) = memRead s.v (blockAddr j) := by
    refine memRead_congr fun n => ?_
    rw [readByte_memWrite, dif_neg]
    simp only [blockAddr]
    omega
  simp only [scratchRead, hm]

/-- Settles O42: inside the space the write is `memWrite` at the block's address, outside it is the fault of log 9. -/
theorem scratchReturnsTheBlockWritten : Obligations.ScratchReturnsTheBlockWritten := by
  refine ⟨fun s i b hi => ?_, fun s i b hi => if_neg (Nat.not_lt.2 hi), fun i s t h hv => ?_⟩
  · refine ⟨_, scratchWrite_eq_ok.2 ⟨hi, rfl⟩, scratchRead_memWrite (s := s) hi rfl, rfl, fun n => ?_, fun a ha => ?_,
      fun j hij => scratchRead_memWrite_of_ne s hij _⟩
    · rw [readByte_memWrite, dif_pos (by simp only [blockAddr]; omega)]
      simp only [blockAddr, Nat.add_sub_cancel_left]
    · rw [readByte_memWrite, dif_neg (by simp only [blockAddr]; omega)]
  · by_contra hi
    exact hv (exec_keeps_v h hi)

/-! ## The host and V -/

/-- The same unit with another scratch memory. -/
def State.withScratch (s : State) (v : Memory) : State := { s with v := v }

theorem ite_withScratch (c : Bool) (s t : State) (v : Memory) :
    (if c then s.withScratch v else t.withScratch v) = (if c then s else t).withScratch v := by
  cases c <;> rfl

theorem readWhenIdle_withScratch (w : Word) (s : State) (v : Memory) :
    readWhenIdle w (s.withScratch v) = (readWhenIdle w s).withScratch v :=
  ite_withScratch s.busy s.refuseRead (s.returnRead w) v

/-- The acceptance checks read the word, the cost and the configuration (R97). -/
theorem writeCmd_withScratch (w : Word) (s : State) (v : Memory) :
    writeCmd w (s.withScratch v) = (writeCmd w s).withScratch v := by
  have hcheck : acceptanceCheck w (s.withScratch v) = acceptanceCheck w s := rfl
  have hbusy : (s.withScratch v).busy = s.busy := rfl
  rw [writeCmd, writeCmd, hbusy, hcheck]
  cases s.busy
  case true => rfl
  case false => cases acceptanceCheck w s <;> rfl

/-- R68: a host access or a command does the same whatever V holds, and leaves it. -/
theorem exec_withScratch {i : Instr} (hi : isEngineStep i = false) (s : State) (v : Memory) :
    ∃ t, exec i s = .next t ∧ exec i (s.withScratch v) = .next (t.withScratch v) := by
  cases i with
  | seqFill | seqMixp | seqMix | seqXmix | seqBmix => cases hi
  | mix | xmix | bmix | romix | wrCmd => exact ⟨_, rfl, congrArg _ (writeCmd_withScratch _ s v)⟩
  | rdX | rdNcost | rdCmd | rdJidx => exact ⟨_, rfl, congrArg _ (readWhenIdle_withScratch _ s v)⟩
  | rdStatus | rdCtr | rdId => exact ⟨_, rfl, rfl⟩
  | rdUnmapped98 | rdUnmappedA0 | rdUnmappedC0 => exact ⟨_, rfl, rfl⟩
  | wrCtr | wrJidx | wrId | wrUnmapped98 | wrUnmappedA0 | wrUnmappedC0 => exact ⟨_, rfl, rfl⟩
  | wrX k w => exact ⟨_, rfl, congrArg _ (ite_withScratch s.busy s.refuseAccess (s.setX k w) v)⟩
  | wrNcost w => exact ⟨_, rfl, congrArg _ (ite_withScratch s.busy s.refuseAccess { s with ncost := w } v)⟩
  | wrStatus w => exact ⟨_, rfl, congrArg _ (ite_withScratch (w.getLsbD 8) { s with hosterr := false } s v)⟩

/-- Settles O53: the access in the unit with the other memory ends in the same state but for V. -/
theorem hostHasNoPathToScratch : Obligations.HostHasNoPathToScratch := by
  intro i s t v hi h
  obtain ⟨u, hu, hv⟩ := exec_withScratch hi s v
  cases h.symm.trans hu
  exact hv

/-! ## The unmapped word indexes -/

/-- An unmapped index is none of the mapped ones (R70, R72). -/
theorem ne_of_unmapped {a n : BitVec 6} (ha : 0x26 ≤ a.toNat) (hn : n.toNat < 0x26) : a ≠ n := by
  rintro rfl
  omega

theorem decodeRead_of_unmapped {a : BitVec 6} (ha : 0x26 ≤ a.toNat) :
    decodeRead a =
      if a.toNat < 0x28 then .rdUnmapped98 a else if a.toNat < 0x30 then .rdUnmappedA0 a else .rdUnmappedC0 a := by
  have hx : ¬a.toNat < 32 := by omega
  have hreg {n : BitVec 6} := ne_of_unmapped (n := n) ha
  rw [decodeRead, dif_neg hx, if_neg (hreg (by decide)), if_neg (hreg (by decide)), if_neg (hreg (by decide)),
    if_neg (hreg (by decide)), if_neg (hreg (by decide)), if_neg (hreg (by decide))]

theorem decodeWrite_of_unmapped {a : BitVec 6} (ha : 0x26 ≤ a.toNat) (v : Word) :
    decodeWrite a v =
      if a.toNat < 0x28 then .wrUnmapped98 a v else if a.toNat < 0x30 then .wrUnmappedA0 a v
      else .wrUnmappedC0 a v := by
  have hx : ¬a.toNat < 32 := by omega
  have hreg {n : BitVec 6} := ne_of_unmapped (n := n) ha
  rw [decodeWrite, dif_neg hx, if_neg (hreg (by decide)), if_neg (hreg (by decide)), if_neg (hreg (by decide)),
    if_neg (hreg (by decide)), if_neg (hreg (by decide)), if_neg (hreg (by decide))]

theorem exec_decodeRead_of_unmapped {a : BitVec 6} (ha : 0x26 ≤ a.toNat) (s : State) :
    exec (decodeRead a) s = .next s.refuseRead := by
  rw [decodeRead_of_unmapped ha]
  split_ifs <;> rfl

theorem exec_decodeWrite_of_unmapped {a : BitVec 6} (ha : 0x26 ≤ a.toNat) (v : Word) (s : State) :
    exec (decodeWrite a v) s = .next s.refuseAccess := by
  rw [decodeWrite_of_unmapped ha]
  split_ifs <;> rfl

/-- Settles O40: all three unmapped rows refuse, and every index from 0x26 on decodes to one of them. -/
theorem unmappedAccessesAreRefused : Obligations.UnmappedAccessesAreRefused := by
  refine ⟨fun a s => ⟨rfl, rfl, rfl⟩, fun s a wdata rest ha => ⟨fun hs => ?_, fun hs => ?_⟩⟩
  · rw [step_access hs, decodeBus_access]
    exact exec_decodeRead_of_unmapped ha _
  · rw [step_access hs, decodeBus_access]
    exact exec_decodeWrite_of_unmapped ha wdata _

end Sys2Proof.Machine

/-!
SUPPORT. Encodings (`30_encoding.md`): the round trip through the three formats, the BUS rows and the selectors they
match, the six legal command words, the acceptance checks, the words placed for the next step, and where an engine step
stops.
-/

namespace Sys2Proof.Machine

/-! ## The round trip -/

theorem decodeRead_ofNat (k : Fin 32) : decodeRead (BitVec.ofNat 6 k.val) = .rdX k := by
  revert k; decide

theorem decodeWrite_ofNat (k : Fin 32) (v : Word) : decodeWrite (BitVec.ofNat 6 k.val) v = .wrX k v := by
  have hk : (BitVec.ofNat 6 k.val).toNat = k.val := Nat.mod_eq_of_lt (k.isLt.trans (by decide))
  rw [decodeWrite, dif_pos (hk.trans_lt k.isLt)]
  exact congrArg (Instr.wrX · v) (Fin.ext hk)

/-- The ranges of the three unmapped rows (R72). -/
theorem unmapped_bounds {a : BitVec 6} :
    (inUnmapped98 a = true → 0x26 ≤ a.toNat ∧ a.toNat < 0x28) ∧
      (inUnmappedA0 a = true → 0x28 ≤ a.toNat ∧ a.toNat < 0x30) ∧ (inUnmappedC0 a = true → 0x30 ≤ a.toNat) := by
  simp only [inUnmapped98, inUnmappedA0, inUnmappedC0, Bool.and_eq_true, decide_eq_true_eq]
  omega

/-- Decoding undoes encoding, in all three formats. -/
theorem decode_encode {i : Instr} (h : i.wellFormed = true) : decode (encode i) = .ok i := by
  cases i with
  | mix k | xmix k => revert k; decide
  | bmix | romix => decide
  | seqFill | seqMixp | seqMix | seqXmix | seqBmix => decide
  | rdX k => exact (decode_busRead _).trans (congrArg _ (decodeRead_ofNat k))
  | rdNcost | rdCmd | rdStatus | rdCtr | rdJidx | rdId => exact decode_busRead _
  | rdUnmapped98 a =>
    obtain ⟨hl, hu⟩ := unmapped_bounds.1 h
    rw [encode, decode_busRead, decodeRead_of_unmapped hl, if_pos hu]
  | rdUnmappedA0 a =>
    obtain ⟨hl, hu⟩ := unmapped_bounds.2.1 h
    rw [encode, decode_busRead, decodeRead_of_unmapped (by omega), if_neg (by omega), if_pos hu]
  | rdUnmappedC0 a =>
    have hl := unmapped_bounds.2.2 h
    rw [encode, decode_busRead, decodeRead_of_unmapped (by omega), if_neg (by omega), if_neg (by omega)]
  | wrX k v => exact (decode_busWrite _ v).trans (congrArg _ (decodeWrite_ofNat k v))
  | wrNcost v | wrCmd v | wrStatus v | wrCtr v | wrJidx v | wrId v => exact decode_busWrite _ v
  | wrUnmapped98 a v =>
    obtain ⟨hl, hu⟩ := unmapped_bounds.1 h
    rw [encode, decode_busWrite, decodeWrite_of_unmapped hl, if_pos hu]
  | wrUnmappedA0 a v =>
    obtain ⟨hl, hu⟩ := unmapped_bounds.2.1 h
    rw [encode, decode_busWrite, decodeWrite_of_unmapped (by omega), if_neg (by omega), if_pos hu]
  | wrUnmappedC0 a v =>
    have hl := unmapped_bounds.2.2 h
    rw [encode, decode_busWrite, decodeWrite_of_unmapped (by omega), if_neg (by omega), if_neg (by omega)]

/-- Settles O11: a case for each row; a bus access decodes by its direction and the range of its word index. -/
theorem decodeInvertsEncode : Obligations.DecodeInvertsEncode := fun _ h => decode_encode h

/-- Settles O13: each word is closed, so the decoder answers by evaluation. -/
theorem decodesTheSpecsWords : Obligations.DecodesTheSpecsWords := by
  unfold Obligations.DecodesTheSpecsWords
  decide

/-! ## The BUS rows -/

/-- Every word index belongs to one row of the register window (R70, R72). -/
theorem wordIndex_cases (a : BitVec 6) :
    (∃ k : Fin 32, a = BitVec.ofNat 6 k.val) ∨ a = 0x20 ∨ a = 0x21 ∨ a = 0x22 ∨ a = 0x23 ∨ a = 0x24 ∨ a = 0x25 ∨
      inUnmapped98 a = true ∨ inUnmappedA0 a = true ∨ inUnmappedC0 a = true := by
  revert a; decide

theorem exists_encode_eq_busRead (a : BitVec 6) : ∃ i : Instr, i.wellFormed = true ∧ encode i = busRead a := by
  rcases wordIndex_cases a with ⟨k, rfl⟩ | rfl | rfl | rfl | rfl | rfl | rfl | h | h | h
  · exact ⟨.rdX k, rfl, rfl⟩
  · exact ⟨.rdNcost, rfl, rfl⟩
  · exact ⟨.rdCmd, rfl, rfl⟩
  · exact ⟨.rdStatus, rfl, rfl⟩
  · exact ⟨.rdCtr, rfl, rfl⟩
  · exact ⟨.rdJidx, rfl, rfl⟩
  · exact ⟨.rdId, rfl, rfl⟩
  · exact ⟨.rdUnmapped98 a, h, rfl⟩
  · exact ⟨.rdUnmappedA0 a, h, rfl⟩
  · exact ⟨.rdUnmappedC0 a, h, rfl⟩

theorem exists_encode_eq_busWrite (a : BitVec 6) (v : Word) :
    ∃ i : Instr, i.wellFormed = true ∧ encode i = busWrite a v := by
  rcases wordIndex_cases a with ⟨k, rfl⟩ | rfl | rfl | rfl | rfl | rfl | rfl | h | h | h
  · exact ⟨.wrX k v, rfl, rfl⟩
  · exact ⟨.wrNcost v, rfl, rfl⟩
  · exact ⟨.wrCmd v, rfl, rfl⟩
  · exact ⟨.wrStatus v, rfl, rfl⟩
  · exact ⟨.wrCtr v, rfl, rfl⟩
  · exact ⟨.wrJidx v, rfl, rfl⟩
  · exact ⟨.wrId v, rfl, rfl⟩
  · exact ⟨.wrUnmapped98 a v, h, rfl⟩
  · exact ⟨.wrUnmappedA0 a v, h, rfl⟩
  · exact ⟨.wrUnmappedC0 a v, h, rfl⟩

/-- A bus selector is its direction and its word index (R91). -/
theorem busSelector_eq (sel : BitVec 7) : BitVec.ofBool (sel.getLsbD 6) ++ sel.extractLsb' 0 6 = sel := by
  revert sel; decide

/-- What a bus selector decodes to is well-formed and encodes to it: some well-formed instruction encodes to the
selector, and decoding undoes that. -/
theorem decodeBus_encodes (sel : BitVec 7) (wdata : Word) :
    (decodeBus sel wdata).wellFormed = true ∧
      encode (decodeBus sel wdata) = .bus sel (if sel.getLsbD 6 then wdata else 0) := by
  have decoded {i : Instr} {we : Bool} {a : BitVec 6} (hwf : i.wellFormed = true)
      (he : encode i = .bus (BitVec.ofBool we ++ a) (if we then wdata else 0)) :
      decodeBus (BitVec.ofBool we ++ a) wdata = i := by
    have hd := decode_encode hwf
    rw [he, decode, decodeBus_access] at hd
    rw [decodeBus_access]
    cases we <;> injection hd
  rw [← busSelector_eq sel, busSelector_we]
  cases sel.getLsbD 6
  · obtain ⟨i, hwf, he⟩ := exists_encode_eq_busRead (sel.extractLsb' 0 6)
    rw [decoded (we := false) hwf he]
    exact ⟨hwf, he⟩
  · obtain ⟨i, hwf, he⟩ := exists_encode_eq_busWrite (sel.extractLsb' 0 6) wdata
    rw [decoded (we := true) hwf he]
    exact ⟨hwf, he⟩

open Laws.EncodingMatchesTable in
/-- A well-formed instruction's word has its row's width and is matched by its row (R91, R92). -/
theorem encode_matches_row (i : Instr) : Statement i := by
  cases i with
  | mix h => exact mix h
  | xmix h => exact xmix h
  | bmix => exact bmix
  | romix => exact romix
  | seqFill => exact seqFill
  | seqMixp => exact seqMixp
  | seqMix => exact seqMix
  | seqXmix => exact seqXmix
  | seqBmix => exact seqBmix
  | rdX k => exact rdX k
  | rdNcost => exact rdNcost
  | rdCmd => exact rdCmd
  | rdStatus => exact rdStatus
  | rdCtr => exact rdCtr
  | rdJidx => exact rdJidx
  | rdId => exact rdId
  | rdUnmapped98 a => exact rdUnmapped98 a
  | rdUnmappedA0 a => exact rdUnmappedA0 a
  | rdUnmappedC0 a => exact rdUnmappedC0 a
  | wrX k v => exact wrX k v
  | wrNcost v => exact wrNcost v
  | wrCmd w => exact wrCmd w
  | wrStatus v => exact wrStatus v
  | wrCtr v => exact wrCtr v
  | wrJidx v => exact wrJidx v
  | wrId v => exact wrId v
  | wrUnmapped98 a v => exact wrUnmapped98 a v
  | wrUnmappedA0 a v => exact wrUnmappedA0 a v
  | wrUnmappedC0 a v => exact wrUnmappedC0 a v

/-- One instruction of each BUS row: ten reads and ten writes. -/
def busInstrs : List Instr :=
  [.rdX 0, .rdNcost, .rdCmd, .rdStatus, .rdCtr, .rdJidx, .rdId, .rdUnmapped98 0, .rdUnmappedA0 0, .rdUnmappedC0 0] ++
    [.wrX 0 0, .wrNcost 0, .wrCmd 0, .wrStatus 0, .wrCtr 0, .wrJidx 0, .wrId 0, .wrUnmapped98 0 0, .wrUnmappedA0 0 0,
      .wrUnmappedC0 0 0]

/-- An instruction's row does not depend on its operands, so the rows of width 7 are those of `busInstrs`. -/
theorem row_mem_of_width {i : Instr} (h : i.row.width = 7) : i.row ∈ busInstrs.map Instr.row := by
  cases i with
  | mix | xmix | bmix | romix | seqFill | seqMixp | seqMix | seqXmix | seqBmix => cases h
  | _ => simp [busInstrs, Instr.row]

/-- Two rows that match one word have the same pattern bits where both masks look. -/
theorem pattern_and_mask_of_hits {r q : TableRow} {w : Nat} (hr : r.hits w = true) (hq : q.hits w = true) :
    r.pattern &&& q.mask = q.pattern &&& r.mask := by
  simp only [TableRow.hits, beq_iff_eq] at hr hq
  rw [← hr, ← hq, Nat.and_assoc, Nat.and_assoc, Nat.and_comm r.mask]

/-- No two BUS rows agree where both masks look, so no selector matches two. -/
theorem busRow_eq_of_hits {r q : TableRow} {w : Nat} (hr : r ∈ busInstrs.map Instr.row)
    (hq : q ∈ busInstrs.map Instr.row) (hrw : r.hits w = true) (hqw : q.hits w = true) : r = q := by
  have apart : ∀ r ∈ busInstrs.map Instr.row, ∀ q ∈ busInstrs.map Instr.row,
      r.pattern &&& q.mask = q.pattern &&& r.mask → r = q := by decide +kernel
  exact apart r hr q hq (pattern_and_mask_of_hits hrw hqw)

/-- Settles O12: what a selector decodes to encodes to it, so its row matches; and the rows exclude each other. -/
theorem busRowsPartitionTheSelectors : Obligations.BusRowsPartitionTheSelectors := by
  intro sel wdata
  obtain ⟨hwf, he⟩ := decodeBus_encodes sel wdata
  obtain ⟨hwidth, hhits⟩ := encode_matches_row _ hwf
  rw [he] at hwidth hhits
  exact ⟨hwf, hwidth.symm, hhits,
    fun i hi hit => busRow_eq_of_hits (row_mem_of_width hi) (row_mem_of_width hwidth.symm) hit hhits, he⟩

/-! ## The command words -/

theorem cmdH_eq_one {w : Word} : cmdH w = 1 ↔ w.getLsbD 8 = true := by
  unfold cmdH
  cases w.getLsbD 8 <;> decide

/-- R96 for a word with its fields as R90 cuts them. -/
theorem cmdIllegal_iff {w : Word} :
    cmdIllegal w = true ↔
      (w.extractLsb' 0 8 ≠ 1 ∧ w.extractLsb' 0 8 ≠ 2 ∧ w.extractLsb' 0 8 ≠ 3 ∧ w.extractLsb' 0 8 ≠ 4) ∨
        w.extractLsb' 9 23 ≠ 0 ∨
        ((w.extractLsb' 0 8 = 3 ∨ w.extractLsb' 0 8 = 4) ∧ w.getLsbD 8 = true) := by
  simp only [cmdIllegal, Bool.or_eq_true, Bool.and_eq_true, Bool.not_eq_true', Bool.or_eq_false_iff, beq_iff_eq,
    beq_eq_false_iff_ne, bne_iff_ne, cmdH_eq_one, and_assoc, or_assoc]
  exact Iff.rfl

/-- R181 as R97 asks it of the cost. -/
theorem costIllegal_iff {n : Word} : costIllegal n = true ↔ n.toNat < 2 ∨ n &&& (n - 1) ≠ 0 := by
  simp only [costIllegal, Bool.or_eq_true, decide_eq_true_eq, bne_iff_ne]
  exact Iff.rfl

/-- The legal command words, each with its command (R92, R96). -/
def legalCommands : List (Word × Instr) :=
  [(0x00000001, .mix 0), (0x00000101, .mix 1), (0x00000002, .xmix 0), (0x00000102, .xmix 1), (0x00000003, .bmix),
    (0x00000004, .romix)]

theorem decodeC_of_mem : ∀ c ∈ legalCommands, decodeC c.1 = .ok c.2 := by decide

/-- A word with no reserved bit is made of its opcode and its half select, so R96 leaves six. -/
theorem exists_mem_legalCommands {w : Word} (h : cmdIllegal w = false) : ∃ i, (w, i) ∈ legalCommands := by
  rw [← Bool.not_eq_true, cmdIllegal_iff, ← cmdH_eq_one, not_or, not_or] at h
  obtain ⟨hopc, hrsv, hhalf⟩ := h
  have word {o : BitVec 8} (ho : cmdOpc w = o) : cmdWord o (cmdH w) = w := cmdWord_of_fields (not_not.1 hrsv) ho rfl
  have low (ho : cmdOpc w = 3 ∨ cmdOpc w = 4) : cmdH w = 0 := by
    have hH : cmdH w ≠ 1 := fun hH => hhalf ⟨ho, hH⟩
    omega
  have mix : ∀ h : Fin 2, (cmdWord 1 h, .mix h) ∈ legalCommands := by decide
  have xmix : ∀ h : Fin 2, (cmdWord 2 h, .xmix h) ∈ legalCommands := by decide
  have bmix : (cmdWord 3 0, .bmix) ∈ legalCommands := by decide
  have romix : (cmdWord 4 0, .romix) ∈ legalCommands := by decide
  simp only [ne_eq, not_and_or, not_not] at hopc
  rcases hopc with ho | ho | ho | ho
  · exact ⟨_, by simpa only [word ho] using mix (cmdH w)⟩
  · exact ⟨_, by simpa only [word ho] using xmix (cmdH w)⟩
  · exact ⟨_, by simpa only [← low (.inl ho), word ho] using bmix⟩
  · exact ⟨_, by simpa only [← low (.inr ho), word ho] using romix⟩

/-- The decoder accepts no illegal word (R96). -/
theorem cmdIllegal_of_decodeC {w : Word} {i : Instr} (h : decodeC w = .ok i) : cmdIllegal w = false := by
  unfold decodeC at h
  split_ifs at h <;> simp_all [cmdIllegal]

/-- The decoder accepts the six legal words. -/
theorem decodeC_eq_ok_iff {w : Word} {i : Instr} : decodeC w = .ok i ↔ (w, i) ∈ legalCommands := by
  refine ⟨fun h => ?_, decodeC_of_mem (w, i)⟩
  obtain ⟨j, hj⟩ := exists_mem_legalCommands (cmdIllegal_of_decodeC h)
  cases h.symm.trans (decodeC_of_mem (w, j) hj)
  exact hj

/-! ## Acceptance and rejection -/

/-- A write to `CMD` while IDLE, check by check in the order of R97. -/
theorem writeCmd_checks {s : State} (w : Word) (hp : s.phase = .idle) :
    writeCmd w s =
      if cmdIllegal w = true then s.raise .invalidCommand
      else if cmdOpc w = 4 ∧ costIllegal s.ncost = true then s.raise .invalidParameter
      else if cmdOpc w = 4 ∧ s.cfg.nMax < s.ncost.toNat then s.raise .allocationFailure
      else s.accept w := by
  rw [writeCmd_of_idle w hp, acceptanceCheck]
  by_cases hw : cmdIllegal w = true
  · simp [hw]
  by_cases h4 : cmdOpc w = 4
  · by_cases hn : costIllegal s.ncost = true
    · simp [hw, h4, hn]
    · by_cases hmax : s.cfg.nMax < s.ncost.toNat <;> simp [hw, h4, hn, hmax]
  · simp only [hw, h4, false_and, if_true, if_false, Bool.false_eq_true]

/-- A write to `CMD` while IDLE of a word that spells no command is rejected by the first check (R97, R183). -/
theorem exec_wrCmd_of_illegal {w : Word} {s : State} (hp : s.phase = .idle) (h : cmdIllegal w = true) :
    exec (.wrCmd w) s = .next (s.raise .invalidCommand) := by
  rw [exec_wrCmd, writeCmd_checks w hp, if_pos h]

/-- Settles O14: an illegal word fails the first check, and the legal ones are the six the decoder accepts. -/
theorem illegalWordsRaiseInvalidCommand : Obligations.IllegalWordsRaiseInvalidCommand := by
  refine ⟨fun w s hp h => exec_wrCmd_of_illegal hp (cmdIllegal_iff.2 h), fun w s hp hw => ?_, fun w i => ?_⟩
  · refine exec_wrCmd_of_illegal hp ?_
    by_contra hlegal
    obtain ⟨i, hi⟩ := exists_mem_legalCommands (Bool.eq_false_iff.2 hlegal)
    exact hw (List.mem_map_of_mem (f := Prod.fst) hi)
  · rw [decode, decodeC_eq_ok_iff]
    simp [legalCommands]

/-- Settles O17: the checks of R97, each said of the fields of the word and of the cost. -/
theorem commandWriteChecksInOrder : Obligations.CommandWriteChecksInOrder := by
  intro w s hp
  rw [exec_wrCmd, writeCmd_checks w hp]
  simp only [cmdIllegal_iff, costIllegal_iff]
  rfl

/-- Settles O18: each word decodes to its mnemonic, and a legal word on `CMD` is the command it decodes to. -/
theorem mnemonicsAreWritesToCmd : Obligations.MnemonicsAreWritesToCmd := by
  intro s
  have mnemonic {w : Word} {i : Instr} (h : decodeC w = .ok i) : exec i s = exec (.wrCmd w) s := exec_of_decodeC h s
  refine ⟨mnemonic ?_, mnemonic ?_, mnemonic ?_, mnemonic ?_, mnemonic ?_, mnemonic ?_⟩ <;> decide

/-- A single command is accepted whatever `NCOST` holds (R97, R98). -/
theorem exec_single_of_idle {w : Word} {i : Instr} {s : State} (hp : s.phase = .idle) (hd : decodeC w = .ok i)
    (h4 : cmdOpc w ≠ 4) : exec i s = .next { s with
      cmdl := w, err := .none, done := false, ctr := 0, phase := .single } := by
  have hc : acceptanceCheck w s = .none := acceptanceCheck_eq_none.2 ⟨cmdIllegal_of_decodeC hd, fun h => absurd h h4⟩
  rw [exec_of_decodeC hd, writeCmd_of_idle w hp, if_pos hc, State.accept, if_neg h4]

/-- Settles O19: only `ROMIX` has a check on the cost, and the powers of two up to `N_MAX` pass it. -/
theorem commandsAreAccepted : Obligations.CommandsAreAccepted := by
  intro s hp
  have mix : ∀ h : Fin 2, decodeC (BitVec.ofNat 32 (1 + 256 * h.val)) = .ok (.mix h) ∧
      cmdOpc (BitVec.ofNat 32 (1 + 256 * h.val)) ≠ 4 := by decide
  have xmix : ∀ h : Fin 2, decodeC (BitVec.ofNat 32 (2 + 256 * h.val)) = .ok (.xmix h) ∧
      cmdOpc (BitVec.ofNat 32 (2 + 256 * h.val)) ≠ 4 := by decide
  have bmix : decodeC 3 = .ok .bmix ∧ cmdOpc 3 ≠ 4 := by decide
  exact ⟨fun h => exec_single_of_idle hp (mix h).1 (mix h).2, fun h => exec_single_of_idle hp (xmix h).1 (xmix h).2,
    exec_single_of_idle hp bmix.1 bmix.2,
    fun e h1 hmax he => exec_romix_of_legalCost hp (legalCost_iff.2 ⟨e, h1, hmax, he⟩)⟩

/-! ## Words placed for the next step -/

theorem selector_phase (s : State) : s.selector.extractLsb' 8 2 = s.phase.toBits :=
  BitVec.extractLsb'_append_eq_left

theorem Phase.toBits_ofBits : ∀ b : BitVec 2, (Phase.ofBits b).toBits = b := by decide

/-- The state an engine selector is placed in, before the engine's turn is. -/
def State.withSelector (s : State) (sel : BitVec 10) : State :=
  { s with phase := Phase.ofBits (sel.extractLsb' 8 2), cmdl := s.cmdl.extractLsb' 8 24 ++ sel.extractLsb' 0 8 }

theorem withSelector_selector (s : State) (sel : BitVec 10) : (s.withSelector sel).selector = sel := by
  have hopc : cmdOpc (s.withSelector sel).cmdl = sel.extractLsb' 0 8 := BitVec.extractLsb'_append_eq_right
  have join : sel.extractLsb' 8 2 ++ sel.extractLsb' 0 8 = sel.extractLsb' 0 10 :=
    BitVec.extractLsb'_append_extractLsb'_eq_extractLsb' rfl
  rw [selector_eq rfl hopc, State.withSelector, Phase.toBits_ofBits]
  exact join.trans BitVec.extractLsb'_eq_self

/-- The state the engine's turn on a placed selector is taken in. -/
def State.placedSelector (s : State) (sel : BitVec 10) : State :=
  if sel = 0x204 then withIndexedBlock (s.withSelector sel) else s.withSelector sel

section

variable {s : State}

theorem withIndexedBlock_of_some {b : Bytes128}
    (h : memRead s.v (blockAddr (index s.cfg.idxWord s.x s.ncost).toNat) = some b) : withIndexedBlock s = s := by
  unfold withIndexedBlock
  dsimp only
  rw [h]

theorem withIndexedBlock_of_none (h : memRead s.v (blockAddr (index s.cfg.idxWord s.x s.ncost).toNat) = none) :
    withIndexedBlock s = { s with
      v := memWrite s.v (blockAddr (index s.cfg.idxWord s.x s.ncost).toNat) (Vector.replicate 128 0) } := by
  unfold withIndexedBlock
  dsimp only
  rw [h]

end

theorem withIndexedBlock_eq (s : State) : withIndexedBlock s = { s with v := (withIndexedBlock s).v } := by
  cases h : memRead s.v (blockAddr (index s.cfg.idxWord s.x s.ncost).toNat) with
  | none => rw [withIndexedBlock_of_none h]
  | some b => rw [withIndexedBlock_of_some h]

theorem withIndexedBlock_script (s : State) (ts : List Turn) :
    withIndexedBlock { s with script := ts } = { withIndexedBlock s with script := ts } := by
  cases h : memRead s.v (blockAddr (index s.cfg.idxWord s.x s.ncost).toNat) with
  | none => rw [withIndexedBlock_of_none h, withIndexedBlock_of_none (s := { s with script := ts }) h]
  | some b => rw [withIndexedBlock_of_some h, withIndexedBlock_of_some (s := { s with script := ts }) h]

theorem place_seq (s : State) (sel : BitVec 10) :
    place s (.seq sel) = { s.placedSelector sel with script := .engine :: s.script } := by
  by_cases h : sel = 0x204
  · rw [State.placedSelector, if_pos h, ← withIndexedBlock_script]
    exact if_pos h
  · rw [State.placedSelector, if_neg h]
    exact if_neg h

/-- Placing a selector changes PHASE, CMDL[7:0] and V only. -/
theorem placedSelector_eq (s : State) (sel : BitVec 10) :
    s.placedSelector sel = { s.withSelector sel with v := (s.placedSelector sel).v } := by
  rw [State.placedSelector]
  split
  · exact withIndexedBlock_eq _
  · rfl

/-- A placed command word or bus selector runs in the state it was placed in. -/
theorem step_place {e : Encoding} {i : Instr} (hd : decode e = .ok i) (he : ∀ sel, e ≠ .seq sel) (s : State) :
    step (place s e) = exec i s := by
  cases e with
  | seq sel => exact absurd rfl (he sel)
  | c w =>
    have h := step_access (s := place s (.c w)) rfl
    exact h.trans (exec_of_decodeC hd s).symm
  | bus sel wdata =>
    cases hd
    have h := step_access (s := place s (.bus sel wdata)) rfl
    rwa [busSelector_eq] at h

/-- A placed engine selector runs the step it decodes to. -/
theorem step_place_seq {sel : BitVec 10} {i : Instr} (hd : decodeSeq sel = .ok i) (s : State) :
    step (place s (.seq sel)) = exec i (s.placedSelector sel) := by
  have hsel : (s.placedSelector sel).selector = sel := by
    rw [placedSelector_eq]
    exact withSelector_selector s sel
  have hscript : (s.placedSelector sel).script = s.script := by
    rw [placedSelector_eq]; rfl
  rw [place_seq, step_engine_of_decodeSeq (.inr ⟨s.script, rfl⟩) (by rw [← hd]; exact congrArg decodeSeq hsel),
    popTurn_of_script rfl, ← hscript]

/-- What a table word decodes to is what the encoding it is placed as decodes to. -/
theorem exists_encoding_of_decodeTableWord {n w : Nat} {i : Instr} (h : decodeTableWord n w = some i) (s : State) :
    ∃ e, tableEncoding n w = some e ∧ decode e = .ok i ∧ s.withFetchWord n w = place s e := by
  unfold decodeTableWord at h
  split at h
  · cases h
  · next e he =>
    refine ⟨e, he, ?_, by rw [State.withFetchWord, he]⟩
    split at h
    · cases h; assumption
    · cases h

theorem decodeSeq_eq_seqMixp {sel : BitVec 10} : decodeSeq sel = .ok .seqMixp ↔ sel = 0x204 := by
  constructor
  · intro h
    rcases decodeSeq_cases sel with ⟨_, d⟩ | ⟨hs, _⟩ | ⟨_, d⟩ | ⟨_, d⟩ | ⟨_, d⟩ | ⟨_, d⟩
    · cases h.symm.trans d
    · exact hs
    all_goals cases h.symm.trans d
  · rintro rfl; rfl

theorem tableEncoding_ne_seq {n w : Nat} {e : Encoding} (h : tableEncoding n w = some e) (hn : n ≠ 16)
    (sel : BitVec 10) : e ≠ .seq sel := by
  rintro rfl
  unfold tableEncoding at h
  split_ifs at h <;> cases h

theorem tableEncoding_seq {w : Nat} {e : Encoding} (h : tableEncoding 16 w = some e) :
    e = .seq (BitVec.ofNat 10 w) := by
  rw [tableEncoding, if_neg (by decide), if_pos rfl, Option.ite_none_right_eq_some] at h
  exact (Option.some.inj h.2).symm

/-- Settles O16: a word runs as its encoding decodes; an engine selector first sets PHASE and CMDL[7:0], and only
that of `SEQ.MIXP` reaches V. -/
theorem placedWordsRunNext : Obligations.PlacedWordsRunNext := by
  have host {n : Nat} (hn : n ≠ 16) (s : State) (w : Nat) (i : Instr) (h : decodeTableWord n w = some i) :
      step (s.withFetchWord n w) = exec i s := by
    obtain ⟨e, he, hd, hplace⟩ := exists_encoding_of_decodeTableWord h s
    rw [hplace, step_place hd (tableEncoding_ne_seq he hn)]
  refine ⟨host (by decide), host (by decide), host (by decide), fun s w i h => ?_⟩
  obtain ⟨e, he, hd, hplace⟩ := exists_encoding_of_decodeTableWord h s
  obtain rfl := tableEncoding_seq he
  refine ⟨s.placedSelector (BitVec.ofNat 10 w), ?_, ?_, ?_, ?_, ?_, ?_⟩
  · rw [hplace, step_place_seq hd]
  · rw [placedSelector_eq]
    exact withSelector_selector s _
  · rw [placedSelector_eq]
    exact BitVec.extractLsb'_append_eq_left
  · rw [placedSelector_eq]
    rfl
  · intro hi
    have hsel : BitVec.ofNat 10 w ≠ 0x204 := fun hs => hi (Decoded.ok.inj (hd.symm.trans (decodeSeq_eq_seqMixp.2 hs)))
    rw [State.placedSelector, if_neg hsel]
    rfl
  · rintro rfl
    rw [State.placedSelector, if_pos (decodeSeq_eq_seqMixp.1 hd)]
    cases hm : memRead s.v (blockAddr (index s.cfg.idxWord s.x s.ncost).toNat) with
    | none => rw [withIndexedBlock_of_none (s := s.withSelector _) hm]; rfl
    | some b => rw [withIndexedBlock_of_some (s := s.withSelector _) hm]; rfl

/-! ## Where an engine step stops -/

theorem scratchWrite_of_le {s : State} {i : Nat} (h : s.cfg.nMax ≤ i) (b : Block) :
    scratchWrite s i b = .error .scratchOutOfRange := if_neg (Nat.not_lt.2 h)

theorem scratchRead_of_le {s : State} {i : Nat} (h : s.cfg.nMax ≤ i) : scratchRead s i = .error .scratchOutOfRange :=
  if_neg (Nat.not_lt.2 h)

/-- One byte without a value makes the block unreadable (R64). -/
theorem scratchRead_of_unwritten {s : State} {i : Nat} (hi : i < s.cfg.nMax) {n : Fin 128}
    (hn : readByte s.v (blockAddr i + n.val) = none) : scratchRead s i = .error .scratchUnwritten := by
  have hread : memRead s.v (blockAddr i) = none := by
    rw [← Option.not_isSome_iff_eq_none, memRead_isSome]
    intro h
    simpa [hn] using h n
  rw [scratchRead, if_pos hi, hread]

theorem execSeqFill_error {s : State} {f : Fault} (hs : s.selector = 0x104)
    (hw : scratchWrite s s.ctr.toNat s.x = .error f) : execSeqFill s = .fault f := by
  rw [execSeqFill, if_pos hs, hw]

theorem execSeqMixp_error {s : State} {f : Fault} (hs : s.selector = 0x204)
    (hr : scratchRead s (index s.cfg.idxWord s.x s.ncost).toNat = .error f) : execSeqMixp s = .fault f := by
  rw [execSeqMixp, if_pos hs]
  simp only [hr]

/-- The selectors that enable an engine step (R99). -/
def engineSelectors : List (BitVec 10) := [0x104, 0x204, 0x301, 0x302, 0x303]

/-- Every other selector is the idle engine's or an unreachable one (R99). -/
theorem decodeSeq_of_not_mem {sel : BitVec 10} (h : sel ∉ engineSelectors) :
    decodeSeq sel = .error (if sel.extractLsb' 8 2 = 0 then .engineIdle else .unreachableSelector) := by
  simp only [engineSelectors, List.mem_cons, List.not_mem_nil, or_false, not_or] at h
  obtain ⟨h1, h2, h3, h4, h5⟩ := h
  rw [decodeSeq, if_neg h1, if_neg h2, if_neg h3, if_neg h4, if_neg h5, apply_ite Decoded.error]

theorem step_engine_of_error {s : State} {e : DecodeError}
    (h : s.script = [] ∨ ∃ rest, s.script = .engine :: rest) (hd : decodeSeq s.selector = .error e) :
    step s = .refused (stopReason e) := by
  simp only [step_engine h, fetchEncoding, decode, hd, runFetched]

theorem Phase.toBits_eq_zero {p : Phase} : p.toBits = 0 ↔ p = .idle := by
  cases p <;> decide

/-- Settles O31: each stop is the branch of its step's test, of the scratch access or of the decoder that gives it. -/
theorem engineStepsStopByName : Obligations.EngineStepsStopByName := by
  intro s
  refine ⟨fun h => if_neg h, fun h => if_neg h, fun h => if_neg h, fun h => if_neg h, fun h => if_neg h,
    fun hs hc => execSeqFill_error hs (scratchWrite_of_le hc _),
    fun hs hj => execSeqMixp_error hs (scratchRead_of_le hj),
    fun hs hj ⟨n, hn⟩ => execSeqMixp_error hs (scratchRead_of_unwritten hj hn),
    fun hscript => ⟨fun hp => ?_, fun hp hsel => ?_⟩⟩
  · have hphase := (selector_phase s).trans (Phase.toBits_eq_zero.2 hp)
    have hbusy : ∀ sel ∈ engineSelectors, sel.extractLsb' 8 2 ≠ 0 := by decide
    have hd := decodeSeq_of_not_mem fun hmem => hbusy _ hmem hphase
    rw [if_pos hphase] at hd
    exact step_engine_of_error hscript hd
  · have hd := decodeSeq_of_not_mem hsel
    rw [if_neg (by rwa [selector_phase, Phase.toBits_eq_zero])] at hd
    exact step_engine_of_error hscript hd

end Sys2Proof.Machine

/-!
SUPPORT. Host scripts (`30_encoding.md` R102): what each turn of a pseudo-instruction does while IDLE, the words a list
of writes or reads carries, and `WAIT` over the run of a `ROMIX`.
-/

namespace Sys2Proof.Machine

/-! ## One turn -/

theorem takeTurn_wr (a : BitVec 6) (v : Word) (s : State) : takeTurn (wr a v) s = exec (decodeWrite a v) s :=
  (takeTurn_access true a v s).trans (by rw [decodeBus_access, if_pos rfl])

theorem takeTurn_rd (a : BitVec 6) (s : State) : takeTurn (rd a) s = exec (decodeRead a) s :=
  (takeTurn_access false a 0 s).trans (by rw [decodeBus_access, if_neg nofun])

/-- `WR X[k], v` while IDLE (R167). -/
theorem takeTurn_wrX {s : State} (hp : s.phase = .idle) (k : Fin 32) (v : Word) :
    takeTurn (wr (BitVec.ofNat 6 k.val) v) s = .next (s.setX k v) := by
  rw [takeTurn_wr, decodeWrite_ofNat]
  exact congrArg Host.Outcome.next (if_neg (by simp [hp]))

/-- `RD X[k]` while IDLE (R162). -/
theorem takeTurn_rdX {s : State} (hp : s.phase = .idle) (k : Fin 32) :
    takeTurn (rd (BitVec.ofNat 6 k.val)) s = .next (s.returnRead s.x[k.val]) := by
  rw [takeTurn_rd, decodeRead_ofNat]
  exact congrArg Host.Outcome.next (if_neg (by simp [hp]))

/-- `WR NCOST, n` while IDLE (R167). -/
theorem takeTurn_wrNcost {s : State} (hp : s.phase = .idle) (n : Word) :
    takeTurn (wr 0x20 n) s = .next { s with ncost := n } :=
  (takeTurn_wr _ n s).trans (congrArg Host.Outcome.next (if_neg (by simp [hp])))

/-- `ROMIX` as a turn (R101). -/
theorem takeTurn_romix (s : State) : takeTurn (command 4) s = .next (writeCmd 4 s) := takeTurn_wr 0x21 4 s

/-- `RD STATUS`, at any time (R161). -/
theorem takeTurn_rdStatus (s : State) : takeTurn (rd 0x22) s = .next (s.returnRead s.statusWord) :=
  takeTurn_rd 0x22 s

/-! ## Words written and read one by one -/

/-- The block with the words `ks` taken from `f`. -/
def storeWords (ks : List (Fin 32)) (f : Fin 32 → Word) (x : Block) : Block :=
  Vector.ofFn fun k => if k ∈ ks then f k else x[k.val]

theorem storeWords_nil (f : Fin 32 → Word) (x : Block) : storeWords [] f x = x := by
  ext k hk : 1
  simp [storeWords]

/-- Storing a word first and the others after it. -/
theorem storeWords_set (k : Fin 32) (ks : List (Fin 32)) (f : Fin 32 → Word) (x : Block) :
    storeWords ks f (x.set k.val (f k)) = storeWords (k :: ks) f x := by
  ext j hj : 1
  simp only [storeWords, Vector.getElem_ofFn, Vector.getElem_set, List.mem_cons]
  by_cases hk : k.val = j
  · obtain rfl : k = ⟨j, hj⟩ := Fin.ext hk
    simp
  · have hne : (⟨j, hj⟩ : Fin 32) ≠ k := fun h => hk (congrArg Fin.val h).symm
    simp [hk, hne]

/-- A list of writes to X while IDLE stores its words and changes nothing else. -/
theorem takeTurns_wrX (ks : List (Fin 32)) (f : Fin 32 → Word) {s : State} (hp : s.phase = .idle) :
    ∃ ws, takeTurns (ks.map fun k => wr (BitVec.ofNat 6 k.val) (f k)) s =
      .next (ws, { s with x := storeWords ks f s.x }) := by
  induction ks generalizing s with
  | nil => exact ⟨[], by rw [storeWords_nil]; rfl⟩
  | cons k ks ih =>
    obtain ⟨ws, h⟩ := ih (s := s.setX k (f k)) hp
    rw [State.setX_x, storeWords_set] at h
    exact ⟨_, takeTurns_cons_next (takeTurn_wrX hp k (f k)) h⟩

/-- A list of reads of X while IDLE returns its words and changes nothing but the read data. -/
theorem takeTurns_rdX (ks : List (Fin 32)) {s : State} (hp : s.phase = .idle) :
    takeTurns (ks.map fun k => rd (BitVec.ofNat 6 k.val)) s =
      .next (ks.map fun k => s.x[k.val], { s with rdata := (ks.map fun k => s.x[k.val]).getLastD s.rdata }) := by
  induction ks generalizing s with
  | nil => rfl
  | cons k ks ih =>
    have h := takeTurns_cons_next (takeTurn_rdX hp k) (ih (s := s.returnRead s.x[k.val]) hp)
    rw [List.map_cons, List.map_cons, List.getLastD_cons]
    exact h

/-! ## The block transfers -/

/-- `LDW` while IDLE (R102). -/
theorem takeTurns_ldw {s : State} (hp : s.phase = .idle) (b : Block) :
    ∃ ws, takeTurns (ldw b) s = .next (ws, { s with x := b }) := by
  obtain ⟨ws, h⟩ := takeTurns_wrX (List.finRange 32) (fun k => b[k.val]) hp
  have hall : storeWords (List.finRange 32) (fun k => b[k.val]) s.x = b := by
    ext k hk : 1
    simp [storeWords]
  exact ⟨ws, by rw [ldw, List.ofFn_eq_map, h, hall]⟩

/-- Word `k` of half `h`, as a word of the block (R23). -/
def halfWord (h : Fin 2) (k : Fin 16) : Fin 32 := ⟨16 * h.val + k.val, by omega⟩

theorem mem_halfWords {h : Fin 2} {k : Fin 32} :
    k ∈ (List.finRange 16).map (halfWord h) ↔ k.val / 16 = h.val := by
  simp only [List.mem_map, List.mem_finRange, true_and, halfWord, Fin.ext_iff]
  constructor
  · rintro ⟨j, hj⟩; omega
  · intro hk; exact ⟨⟨k.val % 16, by omega⟩, by simp; omega⟩

/-- `LDHALF` while IDLE (R102). -/
theorem takeTurns_ldhalf {s : State} (hp : s.phase = .idle) (h : Fin 2) (a : Half) :
    ∃ ws, takeTurns (ldhalf h a) s = .next (ws, { s with x := setHalf h a s.x }) := by
  obtain ⟨ws, hw⟩ := takeTurns_wrX ((List.finRange 16).map (halfWord h)) (fun k => a[k.val % 16]) hp
  have hset : storeWords ((List.finRange 16).map (halfWord h)) (fun k => a[k.val % 16]) s.x = setHalf h a s.x := by
    simp only [storeWords, setHalf, mem_halfWords]
  have hturns : ldhalf h a = ((List.finRange 16).map (halfWord h)).map fun k =>
      wr (BitVec.ofNat 6 k.val) a[k.val % 16] := by
    rw [ldhalf, List.ofFn_eq_map, List.map_map]
    refine List.map_congr_left fun k _ => ?_
    have hmod : (16 * h.val + k.val) % 16 = k.val := by omega
    simp only [Function.comp_apply, halfWord, hmod]
  exact ⟨ws, by rw [hturns, hw, hset]⟩

/-- The reads of `STBLK` while IDLE (R102). -/
theorem takeTurns_stblk {s : State} (hp : s.phase = .idle) :
    takeTurns stblk s = .next (s.x.toList, { s with rdata := s.x[31] }) := by
  have hwords : (List.finRange 32).map (fun k => s.x[k.val]) = s.x.toList := by
    rw [← List.ofFn_eq_map]
    exact Vector.toList_ofFn.symm.trans (congrArg _ Vector.ofFn_getElem)
  have hlast : s.x.toList.getLastD s.rdata = s.x[31] := by
    simp [List.getLastD_eq_getLast?, List.getLast?_eq_getElem?]
  rw [stblk, List.ofFn_eq_map, takeTurns_rdX _ hp, hwords, hlast]

/-- Settles O57: each transfer is a list of writes or reads of words of X. -/
theorem blockTransfersLoadAndStoreX : Obligations.BlockTransfersLoadAndStoreX := by
  intro s hp
  refine ⟨takeTurns_ldw hp, fun b => takeTurns_ldw hp _, takeTurns_ldhalf hp, takeTurns_stblk hp, ?_⟩
  rw [stblkBytes_of_reads (takeTurns_stblk hp), blockOfWords_toList]

/-! ## WAIT -/

/-- Bit 0 of `STATUS` is BUSY (R32). -/
theorem statusWord_busy (s : State) : s.statusWord.getLsbD 0 = s.busy := by
  rw [getLsbD_statusWord, if_pos rfl]

/-- `WAIT` on an idle unit is one read of `STATUS`. -/
theorem hostWait_of_idle (fuel : Nat) {s : State} (hp : s.phase = .idle) :
    hostWait fuel s = some (s.returnRead s.statusWord) := by
  have hb : ¬(s.returnRead s.statusWord).rdata.getLsbD 0 = true := by
    rw [State.returnRead_rdata, statusWord_busy]; simp [hp]
  rw [hostWait.eq_def, takeTurn_rdStatus]
  exact if_neg hb

/-- `WAIT` on a busy unit reads `STATUS`, lets the engine take a step and goes on. -/
theorem hostWait_of_busy (fuel : Nat) {s t : State} (hp : s.phase ≠ .idle)
    (ht : takeTurn .engine (s.returnRead s.statusWord) = .next t) : hostWait (fuel + 1) s = hostWait fuel t := by
  have hb : (s.returnRead s.statusWord).rdata.getLsbD 0 = true := by
    rw [State.returnRead_rdata, statusWord_busy]; simp [hp]
  rw [hostWait.eq_def, takeTurn_rdStatus]
  dsimp only
  rw [if_pos hb, ht]

theorem isEngineStep_of_decodeSeq {sel : BitVec 10} {i : Instr} (h : decodeSeq sel = .ok i) :
    isEngineStep i = true := by
  rcases decodeSeq_cases sel with ⟨_, d⟩ | ⟨_, d⟩ | ⟨_, d⟩ | ⟨_, d⟩ | ⟨_, d⟩ | ⟨_, d⟩ <;> cases h.symm.trans d
  all_goals rfl

/-- An engine step has no part in HOSTERR (R35). -/
theorem takeTurn_engine_hosterr {s t : State} (h : takeTurn .engine s = .next t) : t.hosterr = s.hosterr := by
  rw [takeTurn_engine] at h
  rcases fetchEncoding_seq s with ⟨i, hd, hf⟩ | ⟨e, _, hf⟩ <;> rw [hf] at h
  · rcases exec_next_cases h with ⟨_, _, rfl⟩ | ⟨_, _, b, rfl⟩ | ⟨_, _, x, rfl⟩ | ⟨hi, _⟩
    · exact State.afterFill_hosterr _
    · exact State.afterMixp_hosterr _
    · rfl
    · rw [isEngineStep_of_decodeSeq hd] at hi
      cases hi
  · cases h

theorem RomixAt.idle {s u : State} (h : RomixAt s (2 * s.ncost.toNat) u) : u.phase = .idle := by
  rw [h.phase, if_neg (by omega), if_neg (lt_irrefl _)]

/-- `WAIT` takes a `ROMIX` to its end when it has fuel for the engine steps to come (R100, R146). -/
theorem RomixAt.wait {s u : State} {k fuel : Nat} (h : RomixAt s k u) (hcost : legalCost s.cfg s.ncost = true)
    (hk : k ≤ 2 * s.ncost.toNat) (hfuel : 2 * s.ncost.toNat ≤ k + fuel) :
    ∃ t, hostWait fuel u = some (t.returnRead t.statusWord) ∧ RomixAt s (2 * s.ncost.toNat) t ∧
      t.hosterr = u.hosterr ∧ t.script = u.script := by
  induction fuel generalizing k u with
  | zero =>
    obtain rfl : k = 2 * s.ncost.toNat := by omega
    exact ⟨u, hostWait_of_idle _ h.idle, h, rfl, rfl⟩
  | succ fuel ih =>
    rcases hk.eq_or_lt with rfl | hlt
    · exact ⟨u, hostWait_of_idle _ h.idle, h, rfl, rfl⟩
    · have hread : RomixAt s k { u.returnRead u.statusWord with script := .engine :: u.script } := h.hostSide _ _ _
      obtain ⟨v, hv, hnext, hscript⟩ := hread.engineTurn hcost hlt (.inr ⟨u.script, rfl⟩)
      obtain ⟨t, ht, hend, hhost, hts⟩ := ih hnext hlt (by omega)
      exact ⟨t, (hostWait_of_busy fuel (h.busy hlt) hv).trans ht, hend,
        hhost.trans (takeTurn_engine_hosterr (s := u.returnRead u.statusWord) hv), hts.trans hscript⟩

/-- `STATUS` of an idle unit whose last command succeeded (R32). -/
theorem statusWord_of_success {s : State} (hp : s.phase = .idle) (hd : s.done = true) (he : s.err = .none) :
    s.statusWord = if s.hosterr then 0x102 else 0x002 := by
  rw [State.statusWord, State.busy, hp, hd, he]
  cases s.hosterr <;> rfl

/-! ## ROMIXN -/

theorem takeTurns_setn {s : State} (hp : s.phase = .idle) (n : Word) :
    ∃ ws, takeTurns (setn n) s = .next (ws, { s with ncost := n }) :=
  ⟨_, takeTurns_cons_next (takeTurn_wrNcost hp n) (takeTurns_nil _)⟩

theorem takeTurns_clrhe (s : State) : ∃ ws, takeTurns clrhe s = .next (ws, { s with hosterr := false }) := by
  have hbit : (0x100 : Word).getLsbD 8 = true := by decide
  exact ⟨_, takeTurns_cons_next ((takeTurn_wr 0x22 0x100 s).trans (congrArg Host.Outcome.next (if_pos hbit)))
    (takeTurns_nil _)⟩

/-- `ROMIXN` while IDLE waits where the write of `ROMIX` with the new cost leaves the unit. -/
theorem romixn_of_idle (fuel : Nat) {s : State} (hp : s.phase = .idle) (n : Word) :
    romixn fuel n s = hostWait fuel (writeCmd 4 { s with ncost := n }) := by
  obtain ⟨ws, h⟩ := takeTurns_setn hp n
  exact romixn_of_turns (takeTurns_append_next h (takeTurns_cons_next (takeTurn_romix _) (takeTurns_nil _)))

/-- `ROMIX` with a legal cost, then `WAIT`: ROMix of the block, DONE and no error, and the status read says so. -/
theorem hostWait_romix {s : State} {fuel : Nat} (hp : s.phase = .idle) (hcost : legalCost s.cfg s.ncost = true)
    (hfuel : 2 * s.ncost.toNat ≤ fuel) :
    ∃ u, hostWait fuel (writeCmd 4 s) = some u ∧ u.rdata = (if s.hosterr then 0x102 else 0x002) ∧
      u = { s with
        x := roMix s.cfg.idxWord s.x s.ncost
        v := u.v
        cmdl := 4
        jidx := u.jidx
        done := true
        err := .none
        ctr := 0
        rdata := u.rdata } := by
  obtain ⟨t, hwait, hend, hhost, hscript⟩ := (RomixAt.accept hcost).wait (fuel := fuel) hcost (Nat.zero_le _) (by omega)
  have ht := hend.eq_of_end (legalCost_pos hcost) hp
  rw [State.accept_hosterr] at hhost
  rw [State.accept_script] at hscript
  refine ⟨t.returnRead t.statusWord, ?_, ?_, ?_⟩
  · rw [writeCmd_of_idle 4 hp, if_pos (acceptanceCheck_romix.2 hcost), hwait]
  · rw [State.returnRead_rdata, statusWord_of_success hend.idle (by rw [ht]) hend.err, hhost]
  · rw [hhost, hscript] at ht
    rw [ht]
    rfl

/-- `ROMIX` with an illegal cost, then `WAIT`: the command is rejected, and the first read of `STATUS` ends the wait. -/
theorem hostWait_romix_rejected {s : State} (fuel : Nat) (hp : s.phase = .idle)
    (hcost : legalCost s.cfg s.ncost = false) :
    ∃ u, hostWait fuel (writeCmd 4 s) = some u ∧ u.err ≠ .none ∧
      u = { s with done := true, err := u.err, rdata := u.rdata } := by
  have hbad : acceptanceCheck 4 s ≠ .none := mt acceptanceCheck_romix.1 (Bool.eq_false_iff.1 hcost)
  rw [writeCmd_of_idle 4 hp, if_neg hbad]
  exact ⟨_, hostWait_of_idle fuel hp, hbad, rfl⟩

/-- Settles O60: a legal cost starts a run that `WAIT` takes to its end, an illegal one is rejected. -/
theorem romixnSetsTheCostRunsAndWaits : Obligations.RomixnSetsTheCostRunsAndWaits := by
  refine ⟨fun s n fuel hp hcost hfuel => ?_, fun s n fuel hp hcost => ?_, fun s n hp => takeTurns_setn hp n,
    takeTurns_clrhe⟩
  · rw [romixn_of_idle fuel hp]
    exact hostWait_romix (s := { s with ncost := n }) hp hcost hfuel
  · rw [romixn_of_idle fuel hp]
    exact hostWait_romix_rejected (s := { s with ncost := n }) fuel hp hcost

end Sys2Proof.Machine

/-!
SUPPORT. The MixCore primitive (`40_mixcore.md`): the rotation bit by bit, what one update writes and keeps, that a
table's line has no order, that each update can be undone, and the `MIX`, `XMIX` and `BMIX` commands run to their end.
-/

namespace Sys2Proof.Machine

/-! ## The rotation -/

theorem rotl32_eq_rotateLeft (v : Word) {r : Nat} (hr : r < 32) : rotl32 v r = v.rotateLeft r :=
  (BitVec.rotateLeft_eq_rotateLeftAux_of_lt hr).symm

theorem getLsbD_rotl32 (v : Word) {r i : Nat} (hr : r < 32) (hi : i < 32) :
    (rotl32 v r).getLsbD ((i + r) % 32) = v.getLsbD i := by
  rw [rotl32_eq_rotateLeft v hr, BitVec.getLsbD_rotateLeft_of_le hr]
  by_cases hwrap : i + r < 32
  · have hbit : (i + r) % 32 - r = i := by omega
    have hge : ¬(i + r) % 32 < r := by omega
    have hlt : (i + r) % 32 < 32 := by omega
    simp [hbit, hge, hlt]
  · have hbit : 32 - r + (i + r) % 32 = i := by omega
    have hlt : (i + r) % 32 < r := by omega
    simp [hbit, hlt]

theorem toNat_rotl32 (v : Word) (r : Nat) :
    (rotl32 v r).toNat = (v.toNat * 2 ^ r % 2 ^ 32) ||| (v.toNat / 2 ^ (32 - r)) := by
  rw [rotl32, BitVec.toNat_or, BitVec.toNat_shiftLeft, BitVec.toNat_ushiftRight, Nat.shiftLeft_eq,
    Nat.shiftRight_eq_div_pow]

@[simp] theorem rotl32_zero (r : Nat) : rotl32 0 r = 0 := by simp [rotl32]

/-- Settles O1: the rotation is the library's for these amounts; the amounts and the examples are evaluated. -/
theorem rotateLeftMovesEachBit : Obligations.RotateLeftMovesEachBit := by
  refine ⟨fun v r i _ hr hi => getLsbD_rotl32 v (by omega) hi, fun v r _ _ => toNat_rotl32 v r, ?_⟩
  decide

/-! ## One update -/

@[simp] theorem getElem_update_self (x : Half) (t a b : Fin 16) (r : Nat) :
    (update x t a b r)[t.val] = x[t.val] ^^^ rotl32 (x[a.val] + x[b.val]) r := by
  rw [update, Vector.getElem_set_self]

theorem getElem_update_of_ne (x : Half) {t k : Fin 16} (h : t ≠ k) (a b : Fin 16) (r : Nat) :
    (update x t a b r)[k.val] = x[k.val] := by
  rw [update, Vector.getElem_set_ne _ _ (Fin.val_ne_of_ne h)]

/-- Settles O2: the words of the half after one update. -/
theorem updateWritesItsTargetOnly : Obligations.UpdateWritesItsTargetOnly := fun x t a b r =>
  ⟨getElem_update_self x t a b r, fun _ hk => getElem_update_of_ne x hk.symm a b r⟩

/-- An update after one whose target it has no part in writes what it would have written before. -/
theorem update_update_of_ne (x : Half) {t t' a' b' : Fin 16} (ht : t ≠ t') (ha : t ≠ a') (hb : t ≠ b') (a b : Fin 16)
    (r r' : Nat) : update (update x t a b r) t' a' b' r' =
      (update x t a b r).set t'.val (x[t'.val] ^^^ rotl32 (x[a'.val] + x[b'.val]) r') := by
  rw [update.eq_1 (update x t a b r), getElem_update_of_ne x ht, getElem_update_of_ne x ha, getElem_update_of_ne x hb]

/-- An update that does not read its target is undone by the same update: the words it adds are still there. -/
theorem update_involutive {t a b : Fin 16} (ha : t ≠ a) (hb : t ≠ b) (r : Nat) :
    Function.Involutive fun x => update x t a b r := by
  intro x
  dsimp only
  rw [update.eq_1 (update x t a b r), getElem_update_of_ne x ha, getElem_update_of_ne x hb, getElem_update_self,
    BitVec.xor_assoc, BitVec.xor_self, BitVec.xor_zero, update, Vector.set_set, Vector.set_getElem_self]

/-! ## A list of updates -/

/-- One entry `(t, a, b, r)` of a round's table. -/
abbrev TableEntry := Fin 16 × Fin 16 × Fin 16 × Nat

/-- The update an entry stands for. -/
def applyEntry (x : Half) (u : TableEntry) : Half := update x u.1 u.2.1 u.2.2.1 u.2.2.2

theorem applyRound_eq_foldl (u : List TableEntry) (x : Half) : applyRound u x = u.foldl applyEntry x := by
  induction u generalizing x with
  | nil => rfl
  | cons e u ih => exact ih _

/-- Entry `v` neither writes nor reads the target of entry `u`. -/
abbrev Spares (v u : TableEntry) : Prop := u.1 ≠ v.1 ∧ u.1 ≠ v.2.1 ∧ u.1 ≠ v.2.2.1

theorem applyEntry_comm {u v : TableEntry} (hvu : Spares v u) (huv : Spares u v) (x : Half) :
    applyEntry (applyEntry x u) v = applyEntry (applyEntry x v) u := by
  obtain ⟨ht, ha, hb⟩ := hvu
  obtain ⟨ht', ha', hb'⟩ := huv
  simp only [applyEntry]
  rw [update_update_of_ne x ht ha hb, update_update_of_ne x ht' ha' hb', update, update,
    Vector.set_comm _ _ (Fin.val_ne_of_ne ht)]

/-- Of two different entries on one line of a table, neither has a part in the other's target. -/
theorem spares_of_mem_line : ∀ table ∈ [columnRound, rowRound], ∀ line : Fin 4,
    ∀ u ∈ (table.drop (4 * line.val)).take 4, ∀ v ∈ (table.drop (4 * line.val)).take 4, u ≠ v → Spares v u := by
  decide

/-- Settles O3: different entries of a line commute, and a fold of commuting updates does not depend on their order. -/
theorem tableLinesMayBeReordered : Obligations.TableLinesMayBeReordered := by
  intro table htable line order hperm x
  rw [applyRound_eq_foldl, applyRound_eq_foldl]
  refine hperm.foldl_eq' (fun u hu v hv y => ?_) x
  have hu := hperm.mem_iff.1 hu
  have hv := hperm.mem_iff.1 hv
  have spares := spares_of_mem_line table htable line
  by_cases h : u = v
  · rw [h]
  · exact applyEntry_comm (spares u hu v hv h) (spares v hv u hu (Ne.symm h)) y

/-! ## Salsa20/8 -/

theorem salsa20_8_eq (a : Half) : salsa20_8 a = doubleRounds 4 a := by
  unfold salsa20_8
  rfl

/-- Settles O59: four double rounds are one run through the two tables, four times over. -/
theorem salsaIsFourDoubleRounds : Obligations.SalsaIsFourDoubleRounds := by
  intro a column row
  have hcol : columnRound = column := rfl
  have hrow : rowRound = row := rfl
  refine ⟨hcol, hrow, ?_⟩
  rw [salsa20_8_eq, ← hcol, ← hrow]
  simp only [doubleRounds, doubleRound, applyRound_eq_foldl, List.foldl_append]
  rfl

/-- A round none of whose entries reads its own target is a permutation of the halves: it is undone update by update. -/
theorem applyRound_bijective {u : List TableEntry} (h : ∀ e ∈ u, e.1 ≠ e.2.1 ∧ e.1 ≠ e.2.2.1) :
    Function.Bijective (applyRound u) := by
  induction u with
  | nil => exact Function.bijective_id
  | cons e u ih =>
    obtain ⟨⟨ha, hb⟩, hu⟩ := List.forall_mem_cons.1 h
    exact (ih hu).comp (update_involutive ha hb e.2.2.2).bijective

theorem doubleRound_bijective : Function.Bijective doubleRound :=
  (applyRound_bijective (u := rowRound) (by decide)).comp (applyRound_bijective (u := columnRound) (by decide))

theorem doubleRounds_bijective (d : Nat) : Function.Bijective (doubleRounds d) := by
  induction d with
  | zero => exact Function.bijective_id
  | succ d ih => exact ih.comp doubleRound_bijective

/-- Settles O4: every update of the eight rounds can be undone. -/
theorem salsaPermutesHalves : Obligations.SalsaPermutesHalves := by
  have h : salsa20_8 = doubleRounds 4 := funext salsa20_8_eq
  rw [Obligations.SalsaPermutesHalves, h]
  exact doubleRounds_bijective 4

/-! ## MixCore -/

/-- Settles O5: the words of a sum of halves. -/
theorem mixCoreAddsItsInput : Obligations.MixCoreAddsItsInput := fun a k =>
  getElem_add16 a (salsa20_8 a) k.val k.isLt

/-- What every update keeps, Salsa20/8 keeps. -/
theorem salsa20_8_induct {p : Half → Prop} (hp : ∀ x t a b r, p x → p (update x t a b r)) (x : Half) (h : p x) :
    p (salsa20_8 x) := by
  have rounds (d : Nat) : ∀ y, p y → p (doubleRounds d y) := by
    induction d with
    | zero => exact fun _ hy => hy
    | succ d ih => exact fun y hy => ih _ (applyRound_induct hp _ _ (applyRound_induct hp _ y hy))
  rw [salsa20_8_eq]
  exact rounds 4 x h

/-- Sixteen equal words whose double is 0 stay as they are in every update, which xors the rotation of 0. -/
theorem update_constant {c : Word} (hc : c + c = 0) (x : Half) (t a b : Fin 16) (r : Nat)
    (hx : ∀ k : Fin 16, x[k.val] = c) (k : Fin 16) : (update x t a b r)[k.val] = c := by
  by_cases h : t = k
  · rw [← h, getElem_update_self, hx, hx, hx, hc, rotl32_zero]
    exact BitVec.xor_zero
  · rw [getElem_update_of_ne x h, hx]

theorem mixCore_constant {c : Word} (hc : c + c = 0) {a : Half} (ha : ∀ k : Fin 16, a[k.val] = c) (k : Fin 16) :
    (mixCore a)[k.val] = 0 := by
  have hsalsa : ∀ k : Fin 16, (salsa20_8 a)[k.val] = c := salsa20_8_induct (update_constant hc) a ha
  rw [mixCoreAddsItsInput, ha, hsalsa, hc]

/-- Settles O6: both words double to 0. -/
theorem mixCoreOfConstantHalves : Obligations.MixCoreOfConstantHalves := by
  rintro a (ha | ha)
  · exact mixCore_constant (by decide) ha
  · exact mixCore_constant (by decide) ha

/-! ## The single commands -/

theorem setHalf_comm {g h : Fin 2} (hne : g ≠ h) (a b : Half) (x : Block) :
    setHalf g a (setHalf h b x) = setHalf h b (setHalf g a x) := by
  ext k hk : 1
  simp only [getElem_setHalf]
  by_cases hg : k / 16 = g.val
  · rw [if_pos hg, if_pos hg, if_neg (hg ▸ Fin.val_ne_of_ne hne)]
  · rw [if_neg hg, if_neg hg]

/-- The end of a single command's step, field by field. -/
theorem finish_eq (s : State) (x : Block) :
    { s with x := x }.finish = { s with x := x, phase := .idle, ctr := 0, done := true } := rfl

theorem exec_seqMix_of_single {s : State} {h : Fin 2} (hp : s.phase = .single) (ho : cmdOpc s.cmdl = 1)
    (hh : cmdH s.cmdl = h) : exec .seqMix s = .next { s with
      x := setHalf h (mixCore (getHalf h s.x)) s.x, phase := .idle, ctr := 0, done := true } := by
  subst hh
  exact (execSeqMix_enabled (selector_eq hp ho)).trans (congrArg Host.Outcome.next (finish_eq s _))

theorem exec_seqXmix_of_single {s : State} {h : Fin 2} (hp : s.phase = .single) (ho : cmdOpc s.cmdl = 2)
    (hh : cmdH s.cmdl = h) : exec .seqXmix s = .next { s with
      x := setHalf h (mixCore (xor16 (getHalf h s.x) (getHalf (otherHalf h) s.x))) s.x
      phase := .idle, ctr := 0, done := true } := by
  subst hh
  exact (execSeqXmix_enabled (selector_eq hp ho)).trans (congrArg Host.Outcome.next (finish_eq s _))

theorem exec_seqBmix_of_single {s : State} (hp : s.phase = .single) (ho : cmdOpc s.cmdl = 3) :
    exec .seqBmix s = .next { s with x := blockMix s.x, phase := .idle, ctr := 0, done := true } :=
  (execSeqBmix_enabled (selector_eq hp ho)).trans (congrArg Host.Outcome.next (finish_eq s _))

/-- Settles O26: the words of the block after half `h` is replaced. -/
theorem seqMixEffect : Obligations.SeqMixEffect := by
  intro s h hp ho hbit
  have hh : cmdH s.cmdl = h := Fin.ext ((cmdH_val s.cmdl).trans hbit)
  refine ⟨_, exec_seqMix_of_single hp ho hh, fun k => ?_, fun k => ?_, rfl⟩
  · have hhalf : (16 * h.val + k.val) / 16 = h.val := by omega
    have hword : (16 * h.val + k.val) % 16 = k.val := by omega
    simp only [getElem_setHalf, if_pos hhalf, hword]
  · have hhalf : (16 * (1 - h.val) + k.val) / 16 ≠ h.val := by omega
    simp only [getElem_setHalf, if_neg hhalf]

/-- `s` accepts command `i`, and the one engine step `j` that its selector then enables ends in `t`. -/
def Completes (i j : Instr) (s t : State) : Prop :=
  ∃ a, exec i s = .next a ∧ a.script = s.script ∧ decodeSeq a.selector = .ok j ∧ exec j a = .next t

/-- A single command's word `w` in CMDL, its step's block `x` in X. -/
theorem completes_of_single {i j : Instr} {s : State} {w : Word} {x : Block} (hp : s.phase = .idle)
    (haccept : exec i s = .next { s with cmdl := w, err := .none, done := false, ctr := 0, phase := .single })
    (hd : decodeSeq (Phase.single.toBits ++ cmdOpc w) = .ok j)
    (hend : exec j { s with cmdl := w, err := .none, done := false, ctr := 0, phase := .single } =
      .next { s with x := x, cmdl := w, err := .none, done := true, ctr := 0, phase := .idle }) :
    Completes i j s { s with x := x, cmdl := w, err := .none, done := true, ctr := 0 } :=
  ⟨_, haccept, rfl, hd, by rw [hend, ← hp]⟩

/-- `MIX h` from acceptance to its end (R98, R118). -/
theorem completes_mix {s : State} (hp : s.phase = .idle) (h : Fin 2) : Completes (.mix h) .seqMix s { s with
    x := setHalf h (mixCore (getHalf h s.x)) s.x
    cmdl := BitVec.ofNat 32 (1 + 256 * h.val), err := .none, done := true, ctr := 0 } := by
  obtain ⟨mix, _, _, _⟩ := commandsAreAccepted s hp
  have word : ∀ h : Fin 2, cmdOpc (BitVec.ofNat 32 (1 + 256 * h.val)) = 1 ∧
      cmdH (BitVec.ofNat 32 (1 + 256 * h.val)) = h := by decide
  obtain ⟨hopc, hhalf⟩ := word h
  exact completes_of_single hp (mix h) (by rw [hopc]; decide) (exec_seqMix_of_single rfl hopc hhalf)

/-- `XMIX h` from acceptance to its end (R98, R132). -/
theorem completes_xmix {s : State} (hp : s.phase = .idle) (h : Fin 2) : Completes (.xmix h) .seqXmix s { s with
    x := setHalf h (mixCore (xor16 (getHalf h s.x) (getHalf (otherHalf h) s.x))) s.x
    cmdl := BitVec.ofNat 32 (2 + 256 * h.val), err := .none, done := true, ctr := 0 } := by
  obtain ⟨_, xmix, _, _⟩ := commandsAreAccepted s hp
  have word : ∀ h : Fin 2, cmdOpc (BitVec.ofNat 32 (2 + 256 * h.val)) = 2 ∧
      cmdH (BitVec.ofNat 32 (2 + 256 * h.val)) = h := by decide
  obtain ⟨hopc, hhalf⟩ := word h
  exact completes_of_single hp (xmix h) (by rw [hopc]; decide) (exec_seqXmix_of_single rfl hopc hhalf)

/-- `BMIX` from acceptance to its end (R98, R133). -/
theorem completes_bmix {s : State} (hp : s.phase = .idle) : Completes .bmix .seqBmix s { s with
    x := blockMix s.x, cmdl := 3, err := .none, done := true, ctr := 0 } := by
  obtain ⟨_, _, bmix, _⟩ := commandsAreAccepted s hp
  have hopc : cmdOpc 3 = 3 := by decide
  exact completes_of_single hp bmix (by rw [hopc]; decide) (exec_seqBmix_of_single rfl hopc)

/-- With no turn pending, the step after acceptance is the command's own. -/
theorem Completes.step {i j : Instr} {s t : State} (h : Completes i j s t) (hs : s.script = []) :
    ∃ a, exec i s = .next a ∧ step a = .next t := by
  obtain ⟨a, haccept, hscript, hd, hend⟩ := h
  exact ⟨a, haccept, (step_of_decodeSeq (hscript.trans hs) hd).trans hend⟩

/-- Settles O22: each command completes, and with an empty script its step is the next. -/
theorem singleCommandsRunToCompletion : Obligations.SingleCommandsRunToCompletion := fun _ hp hs =>
  ⟨fun h => (completes_mix hp h).step hs, fun h => (completes_xmix hp h).step hs, (completes_bmix hp).step hs⟩

/-- `HALF(h) <- MixCore(HALF(h))` (R118). -/
def mixHalf (h : Fin 2) (x : Block) : Block := setHalf h (mixCore (getHalf h x)) x

/-- The two halves are mixed in either order: each reads and writes its own words. -/
theorem mixHalf_comm {g h : Fin 2} (hne : g ≠ h) (x : Block) : mixHalf g (mixHalf h x) = mixHalf h (mixHalf g x) := by
  simp only [mixHalf, getHalf_setHalf_other hne, getHalf_setHalf_other hne.symm]
  exact setHalf_comm hne _ _ x

/-- `MIX h` leaves the unit idle with half `h` of X mixed. -/
theorem mix_ends {s : State} (hp : s.phase = .idle) (h : Fin 2) :
    ∃ a t, exec (.mix h) s = .next a ∧ exec .seqMix a = .next t ∧ t.phase = .idle ∧ t.x = mixHalf h s.x := by
  obtain ⟨a, haccept, _, _, hend⟩ := completes_mix hp h
  exact ⟨a, _, haccept, hend, hp, rfl⟩

/-- Settles O24: both orders mix both halves. -/
theorem mixHalvesCommute : Obligations.MixHalvesCommute := by
  intro s hp
  obtain ⟨a, b, ha, hb, hpb, hxb⟩ := mix_ends hp 0
  obtain ⟨c, d, hc, hd, _, hxd⟩ := mix_ends hpb 1
  obtain ⟨a', b', ha', hb', hpb', hxb'⟩ := mix_ends hp 1
  obtain ⟨c', d', hc', hd', _, hxd'⟩ := mix_ends hpb' 0
  have hx : d'.x = d.x := by rw [hxd', hxb', hxd, hxb, mixHalf_comm (by decide)]
  exact ⟨a, b, c, d, a', b', c', d', ha, hb, hc, hd, ha', hb', hc', hd', hx⟩

end Sys2Proof.Machine

/-!
SUPPORT. The BlockMix combiner (`41_blockmix.md`): mixing a half with the other half xored in, BlockMix as the two halves
mixed in turn, and what the `XMIX` and `BMIX` commands and their engine steps do.
-/

namespace Sys2Proof.Machine

/-! ## The halves of a block -/

theorem otherHalf_ne (h : Fin 2) : otherHalf h ≠ h := by decide +revert

/-- The words of a half after it is replaced. -/
theorem getElem_setHalf_self (h : Fin 2) (a : Half) (x : Block) (k : Fin 16) :
    (setHalf h a x)[16 * h.val + k.val]'(by omega) = a[k.val] := by
  rw [← getElem_getHalf h (setHalf h a x) k.val k.isLt, getHalf_setHalf]

/-- The words of the other half after a half is replaced. -/
theorem getElem_setHalf_kept (h : Fin 2) (a : Half) (x : Block) (k : Fin 16) :
    (setHalf h a x)[16 * (1 - h.val) + k.val]'(by omega) = x[16 * (1 - h.val) + k.val]'(by omega) := by
  have hhalf : (16 * (1 - h.val) + k.val) / 16 ≠ h.val := by omega
  rw [getElem_setHalf, if_neg hhalf]

/-! ## The xor of halves -/

theorem xor16_self (a : Half) : xor16 a a = Vector.replicate 16 0 := by
  ext k hk : 1
  rw [getElem_xor16, Vector.getElem_replicate]
  exact BitVec.xor_self

theorem xor16_zero (a : Half) : xor16 a (Vector.replicate 16 0) = a := by
  ext k hk : 1
  rw [getElem_xor16, Vector.getElem_replicate]
  exact BitVec.xor_zero

theorem mixCore_zero : mixCore (Vector.replicate 16 0) = Vector.replicate 16 0 := by
  have hzero : ∀ k : Fin 16, (Vector.replicate 16 (0 : Word))[k.val] = 0 := fun k => Vector.getElem_replicate k.isLt
  ext k hk : 1
  exact (mixCore_constant (by decide) hzero ⟨k, hk⟩).trans (hzero ⟨k, hk⟩).symm

/-! ## Mixing a half with the other xored in -/

/-- `HALF(h) <- MixCore(HALF(h) xor16 HALF(1-h))` (R132). -/
def xmixHalf (h : Fin 2) (x : Block) : Block :=
  setHalf h (mixCore (xor16 (getHalf h x) (getHalf (otherHalf h) x))) x

theorem getHalf_xmixHalf_self (h : Fin 2) (x : Block) :
    getHalf h (xmixHalf h x) = mixCore (xor16 (getHalf h x) (getHalf (otherHalf h) x)) :=
  getHalf_setHalf h _ x

theorem getHalf_xmixHalf_of_ne {g h : Fin 2} (hne : g ≠ h) (x : Block) : getHalf g (xmixHalf h x) = getHalf g x :=
  getHalf_setHalf_other hne _ x

/-- Equal halves xor to zero, which MixCore keeps (R132). -/
theorem getHalf_xmixHalf_of_eq {h : Fin 2} {x : Block} (heq : getHalf h x = getHalf (otherHalf h) x) :
    getHalf h (xmixHalf h x) = Vector.replicate 16 0 := by
  rw [getHalf_xmixHalf_self, ← heq, xor16_self, mixCore_zero]

/-- A zero other half adds nothing to the xor (R132). -/
theorem xmixHalf_of_zero {h : Fin 2} {x : Block} (hzero : getHalf (otherHalf h) x = Vector.replicate 16 0) :
    xmixHalf h x = mixHalf h x := by
  rw [xmixHalf, mixHalf, hzero, xor16_zero]

/-- BlockMix mixes half 0, then half 1 with what the first mix left in half 0 (R131, R134). -/
theorem blockMix_eq (x : Block) : blockMix x = xmixHalf 1 (xmixHalf 0 x) := by
  have hself : getHalf 0 (xmixHalf 0 x) = mixCore (xor16 (getHalf 0 x) (getHalf 1 x)) := getHalf_xmixHalf_self 0 x
  have hkept : getHalf 1 (xmixHalf 0 x) = getHalf 1 x := getHalf_xmixHalf_of_ne (by decide) x
  have hother : otherHalf 1 = 0 := rfl
  rw [xmixHalf, hother, hkept, hself]
  unfold blockMix
  rfl

/-- Settles O7: the second mix leaves half 0 as the first wrote it, and reads it there. -/
theorem blockMixUsesTheNewFirstHalf : Obligations.BlockMixUsesTheNewFirstHalf := by
  refine ⟨fun a b k => getElem_xor16 a b k.val k.isLt, fun h b k => getElem_getHalf h b k.val k.isLt, fun b => ?_⟩
  have hfirst : getHalf 0 (blockMix b) = getHalf 0 (xmixHalf 0 b) := by
    rw [blockMix_eq, getHalf_xmixHalf_of_ne (by decide)]
  constructor
  · exact hfirst.trans (getHalf_xmixHalf_self 0 b)
  · rw [hfirst, blockMix_eq, getHalf_xmixHalf_self, getHalf_xmixHalf_of_ne (by decide)]
    rfl

/-! ## The engine steps -/

/-- Settles O27: the words of the block after half `h` is replaced. -/
theorem seqXmixEffect : Obligations.SeqXmixEffect := by
  intro s h hp ho hbit
  have hh : cmdH s.cmdl = h := Fin.ext ((cmdH_val s.cmdl).trans hbit)
  exact ⟨_, exec_seqXmix_of_single hp ho hh, getElem_setHalf_self h _ s.x, getElem_setHalf_kept h _ s.x, rfl⟩

/-- Settles O28: the step enabled in this sequencer state. -/
theorem seqBmixEffect : Obligations.SeqBmixEffect := fun _ hp ho => exec_seqBmix_of_single hp ho

/-! ## The commands -/

/-- The state an idle unit is in once `XMIX h` has run to its end (R98, R132). -/
def State.afterXmix (s : State) (h : Fin 2) : State := { s with
  x := xmixHalf h s.x, cmdl := BitVec.ofNat 32 (2 + 256 * h.val), err := .none, done := true, ctr := 0 }

@[simp] theorem State.afterXmix_phase (s : State) (h : Fin 2) : (s.afterXmix h).phase = s.phase := by
  rw [State.afterXmix]

theorem xmix_ends {s : State} (hp : s.phase = .idle) (h : Fin 2) :
    ∃ a, exec (.xmix h) s = .next a ∧ exec .seqXmix a = .next (s.afterXmix h) := by
  obtain ⟨a, haccept, _, _, hend⟩ := completes_xmix hp h
  exact ⟨a, haccept, hend⟩

/-- Settles O23: BlockMix is the two mixes in turn, and of the rest only CMDL keeps the command's word. -/
theorem bmixEqualsTwoXmix : Obligations.BmixEqualsTwoXmix := by
  intro s hp
  obtain ⟨a, ha, hb⟩ := xmix_ends hp 0
  obtain ⟨c, hc, hd⟩ := xmix_ends ((s.afterXmix_phase 0).trans hp) 1
  obtain ⟨e, he, _, _, hf⟩ := completes_bmix hp
  exact ⟨a, _, c, _, e, _, ha, hb, hc, hd, he, hf, by simp only [State.afterXmix, blockMix_eq]⟩

/-- Settles O25: both corner cases are about what `XMIX h` leaves in X. -/
theorem xmixOfEqualAndZeroHalves : Obligations.XmixOfEqualAndZeroHalves := by
  intro h s hp
  obtain ⟨a, ha, ht⟩ := xmix_ends hp h
  obtain ⟨b, u, hb, hu, _, hxu⟩ := mix_ends hp h
  exact ⟨a, _, b, u, ha, ht, hb, hu, getHalf_xmixHalf_of_eq, fun hzero => (xmixHalf_of_zero hzero).trans hxu.symm⟩

end Sys2Proof.Machine

/-!
SUPPORT. The ROMix scheduler (`42_romix.md`): the index, ROMix of the zero block, the two engine steps field by field,
that a unit that meets the invariant stops only at an idle engine's turn, and a `ROMIX` run with no host in between.
-/

namespace Sys2Proof.Machine

/-! ## Progress -/

/-- R64: a block whose bytes are all written can be read. -/
theorem scratchRead_of_blockWritten {s : State} {i : Nat} (hi : i < s.cfg.nMax) (hw : s.blockWritten i) :
    ∃ b, scratchRead s i = .ok b := by
  obtain ⟨bytes, hread⟩ := Option.isSome_iff_exists.1 (memRead_isSome.2 hw)
  exact ⟨_, scratchRead_eq_ok.2 ⟨hi, bytes, hread, rfl⟩⟩

namespace State.Inv

variable {s : State}

/-- R69: the counter stays below the cost, so a fill iteration stores inside the space. -/
theorem seqFill_goesOn (h : s.Inv) (hp : s.phase = .fill) :
    s.selector = 0x104 ∧ goesOn (exec .seqFill s) := by
  obtain ⟨hcost, hlt, hopc⟩ := h.loop (.inl hp)
  obtain ⟨_, _, hmax⟩ := legalCost_iff_bounds.1 hcost
  have hsel : s.selector = 0x104 := selector_eq hp hopc
  exact ⟨hsel, _, execSeqFill_enabled hsel (by omega)⟩

/-- R150: the index is below the cost, and the fill phase has written every block below the cost. -/
theorem seqMixp_goesOn (h : s.Inv) (hp : s.phase = .mixp) :
    s.selector = 0x204 ∧ goesOn (exec .seqMixp s) := by
  obtain ⟨hcost, _, hopc⟩ := h.loop (.inr hp)
  obtain ⟨_, _, hmax⟩ := legalCost_iff_bounds.1 hcost
  have hlt := index_lt s.cfg.idxWord s.x (legalCost_pos hcost)
  obtain ⟨b, hread⟩ := scratchRead_of_blockWritten (hlt.trans_le hmax) (h.mixpWritten hp _ hlt)
  have hsel : s.selector = 0x204 := selector_eq hp hopc
  exact ⟨hsel, _, execSeqMixp_enabled hsel hread⟩

/-- R99: a busy unit's selector enables an engine step, and that step goes on. -/
theorem engine_goesOn (h : s.Inv) (hb : s.phase ≠ .idle) :
    ∃ i, decodeSeq s.selector = .ok i ∧ goesOn (exec i s) := by
  cases hp : s.phase with
  | idle => exact absurd hp hb
  | fill =>
    obtain ⟨hsel, hgo⟩ := h.seqFill_goesOn hp
    exact ⟨_, by rw [hsel]; rfl, hgo⟩
  | mixp =>
    obtain ⟨hsel, hgo⟩ := h.seqMixp_goesOn hp
    exact ⟨_, by rw [hsel]; rfl, hgo⟩
  | single =>
    rcases h.single hp with ho | ho | ho
    · exact ⟨.seqMix, by rw [selector_eq hp ho]; rfl, _, exec_seqMix_of_single hp ho rfl⟩
    · exact ⟨.seqXmix, by rw [selector_eq hp ho]; rfl, _, exec_seqXmix_of_single hp ho rfl⟩
    · exact ⟨.seqBmix, by rw [selector_eq hp ho]; rfl, _, exec_seqBmix_of_single hp ho⟩

/-- The engine's turn goes on while BUSY and stops as noStep while IDLE (R26, log 2). -/
theorem engineTurn_goesOn (h : s.Inv) (hs : s.script = [] ∨ ∃ rest, s.script = .engine :: rest) :
    goesOn (step s) ∨
      (s.phase = .idle ∧ (s.script = [] ∨ ∃ rest, s.script = .engine :: rest) ∧ step s = .refused .noStep) := by
  by_cases hp : s.phase = .idle
  · obtain ⟨_, _, _, _, _, _, _, _, hstop⟩ := engineStepsStopByName s
    exact .inr ⟨hp, hs, (hstop hs).1 hp⟩
  · obtain ⟨i, hd, hgo⟩ := h.popTurn.engine_goesOn hp
    rw [step_engine_of_decodeSeq hs hd]
    exact .inl hgo

end State.Inv

/-- Settles O50: an access and a reset always go on, and the engine's turn does while BUSY. -/
theorem unitNeverFaults : Obligations.UnitNeverFaults := by
  intro s h
  rcases hs : s.script with _ | ⟨_ | _ | _, rest⟩
  case nil => exact hs ▸ h.engineTurn_goesOn (.inl hs)
  case cons.engine => exact hs ▸ h.engineTurn_goesOn (.inr ⟨rest, hs⟩)
  case cons.access we idx wdata =>
    obtain ⟨t, ht, _⟩ := exec_host' (decodeBus_isEngineStep (BitVec.ofBool we ++ idx) wdata) { s with script := rest }
    exact .inl ⟨t, (step_access hs).trans ht⟩
  case cons.reset => exact .inl ⟨_, step_reset hs⟩

/-! ## A ROMIX run with no host in between -/

/-- An engine step has no part in HOSTERR (R35) nor in the read data (log 4). -/
theorem engineStep_keeps_hostSide {s t : State} (hs : s.script = []) (h : step s = .next t) :
    t.hosterr = s.hosterr ∧ t.rdata = s.rdata := by
  obtain ⟨i, hd, he⟩ := step_next_of_script_nil hs h
  have hi := isEngineStep_of_decodeSeq hd
  rcases exec_next_cases he with ⟨_, _, rfl⟩ | ⟨_, _, b, rfl⟩ | ⟨_, _, x, rfl⟩ | ⟨hi', _⟩
  · exact ⟨State.afterFill_hosterr _, State.afterFill_rdata _⟩
  · exact ⟨State.afterMixp_hosterr _, State.afterMixp_rdata _⟩
  · exact ⟨rfl, rfl⟩
  · exact absurd (hi.symm.trans hi') nofun

/-- With no turn pending, `j` steps take the run `j` engine steps on, and the host's side stays as it was. -/
theorem RomixAt.runEngine {s u : State} {k j : Nat} (h : RomixAt s k u) (hcost : legalCost s.cfg s.ncost = true)
    (hs : u.script = []) (hj : k + j ≤ 2 * s.ncost.toNat) :
    ∃ t, runSteps j u = .next t ∧ RomixAt s (k + j) t ∧ t.hosterr = u.hosterr ∧ t.rdata = u.rdata ∧ t.script = [] := by
  induction j generalizing k u with
  | zero => exact ⟨u, rfl, h, rfl, rfl, hs⟩
  | succ j ih =>
    obtain ⟨v, hv, hnext, hscript⟩ := h.engineTurn hcost (by omega) (.inl hs)
    obtain ⟨hhost, hrdata⟩ := engineStep_keeps_hostSide hs hv
    obtain ⟨t, hrun, hat, hhost', hrdata', hscript'⟩ := ih hnext (by rw [hscript, hs, List.tail_nil]) (by omega)
    refine ⟨t, (runSteps_succ hv).trans hrun, ?_, hhost'.trans hhost, hrdata'.trans hrdata, hscript'⟩
    rwa [Nat.add_right_comm, Nat.add_assoc] at hat

/-- Settles O54: acceptance starts a run, which every engine step takes one on until the `2 * NCOST`th ends it. -/
theorem romixComputesTheRomixFunction : Obligations.RomixComputesTheRomixFunction := by
  intro s hp hs hcost
  have run (j : Nat) (hj : j ≤ 2 * s.ncost.toNat) :=
    (RomixAt.accept hcost).runEngine (j := j) hcost hs (by omega)
  obtain ⟨t, hrun, hend, hhost, hrdata, hscript⟩ := run _ le_rfl
  rw [Nat.zero_add] at hend
  refine ⟨_, t, exec_romix_of_legalCost hp hcost, hrun, fun k hk => ?_, fun i hi => hend.stored i (by omega) hi,
    hend.above, ?_⟩
  · obtain ⟨u, hu, hat, _⟩ := run k hk.le
    exact ⟨u, hu, hat.busy (by omega)⟩
  · have ht := hend.eq_of_end (legalCost_pos hcost) hp
    rw [hhost, hrdata, hscript, ← hs] at ht
    exact ht

/-! ## The index -/

/-- Settles O9: `N - 1` is a mask of ones, so the conjunction is the residue. -/
theorem mixIndexIsBelowTheCost : Obligations.MixIndexIsBelowTheCost := by
  intro w b n e hn
  have hpos : 0 < n.toNat := hn ▸ Nat.two_pow_pos e
  have hmask : (n - 1).toNat = 2 ^ e - 1 := hn ▸ BitVec.toNat_sub_of_le (BitVec.le_def.2 hpos)
  refine ⟨?_, index_lt w b hpos⟩
  rw [index, BitVec.toNat_and, hmask, Nat.and_two_pow_sub_one_eq_mod]

/-! ## The zero block -/

/-- The block of zeros (R142). -/
abbrev zeroBlock : Block := Vector.replicate 32 0

theorem getHalf_zeroBlock (h : Fin 2) : getHalf h zeroBlock = Vector.replicate 16 0 := by
  ext k hk : 1
  rw [getElem_getHalf, Vector.getElem_replicate, Vector.getElem_replicate]

theorem setHalf_zeroBlock (h : Fin 2) : setHalf h (Vector.replicate 16 0) zeroBlock = zeroBlock := by
  ext k hk : 1
  simp only [getElem_setHalf, Vector.getElem_replicate, ite_self]

theorem xor32v_self (x : Block) : xor32v x x = zeroBlock := by
  ext k hk : 1
  rw [getElem_xor32v, Vector.getElem_replicate]
  exact BitVec.xor_self

/-- Zero halves xor to zero, which MixCore keeps (R119). -/
theorem xmixHalf_zeroBlock (h : Fin 2) : xmixHalf h zeroBlock = zeroBlock := by
  rw [xmixHalf, getHalf_zeroBlock, getHalf_zeroBlock, xor16_self, mixCore_zero, setHalf_zeroBlock]

theorem blockMix_zeroBlock : blockMix zeroBlock = zeroBlock := by
  rw [blockMix_eq, xmixHalf_zeroBlock, xmixHalf_zeroBlock]

theorem blockMixIter_zeroBlock (i : Nat) : blockMixIter i zeroBlock = zeroBlock := by
  induction i with
  | zero => rfl
  | succ i ih => rw [blockMixIter, ih, blockMix_zeroBlock]

theorem mixPhase_zeroBlock (w : Fin 32) (n : Word) (k : Nat) : mixPhase w zeroBlock n k zeroBlock = zeroBlock := by
  induction k with
  | zero => rfl
  | succ k ih => rw [mixPhase, blockMixIter_zeroBlock, xor32v_self, blockMix_zeroBlock, ih]

/-- Settles O10: every snapshot of the fill phase is zero, and so every block of the mix phase. -/
theorem romixOfTheZeroBlockIsZero : Obligations.RomixOfTheZeroBlockIsZero := by
  intro w n
  rw [roMix, blockMixIter_zeroBlock, mixPhase_zeroBlock]

/-! ## The engine steps -/

/-- The sequencer's advance after a fill iteration, field by field (R143). -/
theorem afterFill_eq (s : State) : s.afterFill = { s with
    phase := if s.ctr.toNat + 1 = s.ncost.toNat then .mixp else .fill
    ctr := if s.ctr.toNat + 1 = s.ncost.toNat then 0 else s.ctr + 1 } := by
  by_cases hlast : s.ctr.toNat + 1 = s.ncost.toNat
  · rw [if_pos hlast, if_pos hlast]
    exact if_pos (lastIteration_iff.2 hlast)
  · rw [if_neg hlast, if_neg hlast]
    exact if_neg (mt lastIteration_iff.1 hlast)

/-- The sequencer's advance after a mix iteration, field by field (R144). -/
theorem afterMixp_eq (s : State) : s.afterMixp = { s with
    phase := if s.ctr.toNat + 1 = s.ncost.toNat then .idle else .mixp
    ctr := if s.ctr.toNat + 1 = s.ncost.toNat then 0 else s.ctr + 1
    done := if s.ctr.toNat + 1 = s.ncost.toNat then true else s.done } := by
  by_cases hlast : s.ctr.toNat + 1 = s.ncost.toNat
  · rw [if_pos hlast, if_pos hlast, if_pos hlast]
    exact if_pos (lastIteration_iff.2 hlast)
  · rw [if_neg hlast, if_neg hlast, if_neg hlast]
    exact if_neg (mt lastIteration_iff.1 hlast)

/-- Settles O29: the step enabled in this sequencer state, and the bytes of V after its block write. -/
theorem seqFillEffect : Obligations.SeqFillEffect := by
  intro s hp ho hc
  refine ⟨_, (execSeqFill_enabled (selector_eq hp ho) hc).trans (congrArg _ (afterFill_eq _)), fun n => ?_,
    fun a ha => ?_, rfl⟩
  · rw [readByte_memWrite, dif_pos (by omega)]
    simp only [Nat.add_sub_cancel_left]
  · rw [readByte_memWrite, dif_neg (by omega)]

/-- Settles O30: the block the index names holds `bytes`, and the step enabled in this sequencer state reads it. -/
theorem seqMixpEffect : Obligations.SeqMixpEffect := by
  refine ⟨fun a b k => getElem_xor32v a b k.val k.isLt, fun s bytes hp ho hj hbytes => ?_⟩
  have hread : scratchRead s (index s.cfg.idxWord s.x s.ncost).toNat = .ok (decodeBytes bytes) :=
    scratchRead_eq_ok.2 ⟨hj, bytes, memRead_eq_some.2 hbytes, rfl⟩
  exact (execSeqMixp_enabled (selector_eq hp ho) hread).trans (congrArg _ (afterMixp_eq _))

end Sys2Proof.Machine

/-!
SUPPORT. The host's accesses (`43_host_bus.md` R160 to R172), row by row: the gate of the registers that the host reaches
only while IDLE, and what each read and each write does.
-/

namespace Sys2Proof.Machine

/-! ## The gate -/

/-- R162, R167: an idle unit grants a gated access, with the effect `u`. -/
theorem gated_of_idle {s : State} (hp : s.phase = .idle) (t u : State) :
    (.next (if s.busy then t else u) : Host.Outcome State Fault Refusal) = .next u :=
  congrArg Host.Outcome.next (if_neg (by simp [hp]))

/-- R163, R169: a busy unit refuses it, with the effect `t`. -/
theorem gated_of_busy {s : State} (hb : s.phase ≠ .idle) (t u : State) :
    (.next (if s.busy then t else u) : Host.Outcome State Fault Refusal) = .next t :=
  congrArg Host.Outcome.next (if_pos (busy_eq_true.2 hb))

/-- R169: a busy unit does not decode the word. -/
theorem exec_wrCmd_of_busy {s : State} (hb : s.phase ≠ .idle) (w : Word) :
    exec (.wrCmd w) s = .next s.refuseAccess := by
  rcases writeCmd_cases w s with ⟨_, e⟩ | ⟨hp, _⟩ | ⟨hp, _⟩
  · rw [exec_wrCmd, e]
  · exact absurd hp hb
  · exact absurd hp hb

/-! ## Reads -/

/-- Settles O32: the three reads return a word made of the state, where BUSY is the one bit that is no register. -/
theorem statusCtrIdAreReadAtAnyTime : Obligations.StatusCtrIdAreReadAtAnyTime := by
  intro s
  rw [decide_phase_ne_idle]
  exact ⟨rfl, rfl, rfl⟩

/-- Settles O34: the four gated reads, granted. -/
theorem idleReadsReturnTheRegister : Obligations.IdleReadsReturnTheRegister := fun s hp =>
  have granted := fun v => gated_of_idle hp s.refuseRead (s.returnRead v)
  ⟨fun k => granted s.x[k.val], granted s.ncost, granted s.cmdl, granted s.jidx⟩

/-- Settles O35: the four gated reads, refused. -/
theorem busyReadsAreRefused : Obligations.BusyReadsAreRefused := fun s hb =>
  have refused := fun v => gated_of_busy hb s.refuseRead (s.returnRead v)
  ⟨fun k => refused s.x[k.val], refused s.ncost, refused s.cmdl, refused s.jidx⟩

/-! ## Writes -/

/-- Settles O36: both writes pass the gate, and the one to `X[k]` sets that word of the block. -/
theorem idleWritesStoreTheValue : Obligations.IdleWritesStoreTheValue := by
  intro s hp v
  have granted := gated_of_idle hp s.refuseAccess
  refine ⟨fun k => ⟨s.setX k v, granted (s.setX k v), ?_, fun m hm => ?_, rfl⟩, granted { s with ncost := v }⟩
  · rw [State.setX_x, Vector.getElem_set_self]
  · rw [State.setX_x, Vector.getElem_set_ne _ _ fun h => hm (Fin.ext h.symm)]

/-- Settles O37: the gate refuses the two register writes, and every command is a write of its word to `CMD`. -/
theorem busyWritesAreRefused : Obligations.BusyWritesAreRefused := fun s hb v k h =>
  have refused := gated_of_busy hb s.refuseAccess
  have command := exec_wrCmd_of_busy hb
  ⟨refused (s.setX k v), refused { s with ncost := v }, command v, command (cmdWord 1 h), command (cmdWord 2 h),
    command (cmdWord 3 0), command (cmdWord 4 0)⟩

/-- Settles O38: bit 8 set, HOSTERR is cleared; bit 8 clear, the state is left as it is. -/
theorem statusWriteClearsHosterrOnly : Obligations.StatusWriteClearsHosterrOnly := by
  intro v s
  by_cases hbit : v.getLsbD 8 = true
  · rw [if_pos hbit]
    exact congrArg Host.Outcome.next (if_pos hbit)
  · rw [if_neg hbit]
    exact congrArg Host.Outcome.next (if_neg hbit)

/-- Settles O39: each of the six rows refuses the access in every state. -/
theorem readOnlyWritesAreRefused : Obligations.ReadOnlyWritesAreRefused :=
  fun _ _ _ => ⟨rfl, rfl, rfl, rfl, rfl, rfl⟩

end Sys2Proof.Machine

/-!
SUPPORT. The errors `ROMIX` reports (`60_exceptions.md` R181, R182): the costs each is reported for, and that the check on
`N_MAX` is the only source of AllocationFailure.
-/

namespace Sys2Proof.Machine

/-! ## The costs -/

/-- The costs R181 lets pass are the powers of two from `N_MIN` up, whatever `N_MAX` is. -/
theorem costIllegal_eq_false_iff {n : Word} : costIllegal n = false ↔ ∃ e : Nat, 1 ≤ e ∧ n.toNat = 2 ^ e := by
  rw [← Bool.not_eq_true, costIllegal_iff, not_or, not_lt, not_not]
  constructor
  · rintro ⟨h2, hp⟩
    obtain ⟨e, he⟩ := (isPowerOfTwo_iff (by omega)).1 hp
    have h1 : 2 ^ 1 ≤ 2 ^ e := he ▸ h2
    exact ⟨e, (Nat.pow_le_pow_iff_right (by decide)).1 h1, he⟩
  · rintro ⟨e, h1, he⟩
    have h2 : 2 ^ 1 ≤ 2 ^ e := Nat.pow_le_pow_right (by decide) h1
    exact ⟨by omega, (isPowerOfTwo_iff (by omega)).2 ⟨e, he⟩⟩

/-- A power of two is above `N_MAX` when its exponent is above `LOG2_NMAX` (R14). -/
theorem nMax_lt_iff {c : Config} {n : Word} {e : Nat} (he : n.toNat = 2 ^ e) :
    c.nMax < n.toNat ↔ c.log2NMax < e := by
  rw [he, Config.nMax, Nat.pow_lt_pow_iff_right (by decide)]

/-! ## The source of each error -/

/-- `ROMIX` while IDLE: its word passes check 1 of R97, so what is left are the checks on the cost. -/
theorem exec_romix_checks {s : State} (hp : s.phase = .idle) :
    exec .romix s = .next (
      if costIllegal s.ncost = true then s.raise .invalidParameter
      else if s.cfg.nMax < s.ncost.toNat then s.raise .allocationFailure
      else s.accept 4) := by
  have hlegal : ¬cmdIllegal 4 = true := by decide
  have hopc : cmdOpc 4 = 4 := by decide
  rw [exec_romix, writeCmd_checks 4 hp, if_neg hlegal]
  simp only [hopc, true_and]

/-- AllocationFailure is the last check of R97: a legal word, of `ROMIX`, with a cost R181 lets pass. -/
theorem acceptanceCheck_eq_allocationFailure {w : Word} {s : State} :
    acceptanceCheck w s = .allocationFailure ↔
      (cmdIllegal w = false ∧ cmdOpc w = 4) ∧ costIllegal s.ncost = false ∧ s.cfg.nMax < s.ncost.toNat := by
  unfold acceptanceCheck
  split_ifs <;> simp_all

/-- `ROMIX` has one legal word (R92). -/
theorem eq_four_of_legal {w : Word} (h : cmdIllegal w = false) (ho : cmdOpc w = 4) : w = 4 := by
  obtain ⟨i, hi⟩ := exists_mem_legalCommands h
  have only : ∀ c ∈ legalCommands, cmdOpc c.1 = 4 → c.1 = 4 := by decide
  exact only (w, i) hi ho

/-- What presents a command writes a word to `CMD` (R101, R168); only `ROMIX` and the write itself present `ROMIX`'s. -/
theorem exec_of_presentsCommand {i : Instr} (hcmd : presentsCommand i = true) (s : State) :
    ∃ w, exec i s = .next (writeCmd w s) ∧ (w = 4 → i = .romix ∨ i = .wrCmd 4) := by
  have single : ∀ h : Fin 2, cmdWord 1 h ≠ 4 ∧ cmdWord 2 h ≠ 4 ∧ cmdWord 3 h ≠ 4 := by decide
  cases i with
  | mix h => exact ⟨_, rfl, fun hw => absurd hw (single h).1⟩
  | xmix h => exact ⟨_, rfl, fun hw => absurd hw (single h).2.1⟩
  | bmix => exact ⟨_, rfl, fun hw => absurd hw (single 0).2.2⟩
  | romix => exact ⟨_, exec_romix s, fun _ => .inl rfl⟩
  | wrCmd w => exact ⟨w, exec_wrCmd w s, fun hw => .inr (congrArg Instr.wrCmd hw)⟩
  | _ => cases hcmd

/-- Only a rejection for the cost brings AllocationFailure about: `ERR` changes by a command presented while IDLE, to the
code of the check that failed. -/
theorem allocationFailure_source {i : Instr} {s t : State} (h : exec i s = .next t) (ht : t.err = .allocationFailure)
    (hs : s.err ≠ .allocationFailure) :
    (i = .romix ∨ i = .wrCmd 4) ∧ costIllegal s.ncost = false ∧ s.cfg.nMax < s.ncost.toNat := by
  obtain ⟨_, _, _, _, herr, _⟩ := eachRegisterHasItsWriters i s t h
  obtain ⟨hcmd, hp⟩ := herr (ht ▸ hs.symm)
  obtain ⟨w, hw, hromix⟩ := exec_of_presentsCommand hcmd s
  cases h.symm.trans hw
  have hcheck : acceptanceCheck w s = .allocationFailure := by
    rw [writeCmd_of_idle w hp] at ht
    split_ifs at ht
    · cases ht
    · exact ht
  obtain ⟨⟨hlegal, hopc⟩, hcost⟩ := acceptanceCheck_eq_allocationFailure.1 hcheck
  exact ⟨hromix (eq_four_of_legal hlegal hopc), hcost⟩

/-- Settles O20: the two checks on the cost in their order, and the source of AllocationFailure. -/
theorem illegalCostsAreRejected : Obligations.IllegalCostsAreRejected := by
  intro s hp
  refine ⟨fun hbad => ?_, fun e h1 he hmax => ?_, fun i t h ht hs => ?_⟩
  · rw [← costIllegal_eq_false_iff, Bool.not_eq_false] at hbad
    rw [exec_romix_checks hp, if_pos hbad]
    rfl
  · have hgood : ¬costIllegal s.ncost = true := Bool.not_eq_true _ ▸ costIllegal_eq_false_iff.2 ⟨e, h1, he⟩
    rw [exec_romix_checks hp, if_neg hgood, if_pos ((nMax_lt_iff he).2 hmax)]
    rfl
  · obtain ⟨hi, hgood, hmax⟩ := allocationFailure_source h ht hs
    obtain ⟨e, h1, he⟩ := costIllegal_eq_false_iff.1 hgood
    exact ⟨hi, e, h1, he, (nMax_lt_iff he).1 hmax⟩

end Sys2Proof.Machine

/-!
SUPPORT. Reset and hazards (`70_reset_and_hazards.md`): one call of the engine as a host script, and what a reset leaves.
-/

namespace Sys2Proof.Machine

/-! ## One call of the engine -/

/-- The turns of a call up to its `WAIT`, taken while IDLE: the cost and the block are loaded, then `ROMIX` is written. -/
theorem takeTurns_call {s : State} (hp : s.phase = .idle) (n : Word) (b : Bytes128) :
    ∃ ws, takeTurns (setn n ++ (ldblk b ++ [command 4])) s =
      .next (ws, writeCmd 4 { s with ncost := n, x := decodeBytes b }) := by
  obtain ⟨_, hset⟩ := takeTurns_setn hp n
  obtain ⟨_, hload⟩ := takeTurns_ldw (s := { s with ncost := n }) hp (decodeBytes b)
  have hcmd := takeTurns_cons_next (takeTurn_romix { s with ncost := n, x := decodeBytes b }) (takeTurns_nil _)
  exact ⟨_, takeTurns_append_next hset (takeTurns_append_next hload hcmd)⟩

/-- Settles O58: the call loads the cost and the block, `WAIT` takes the accepted `ROMIX` to its end, and `STBLK` reads
the X it leaves. -/
theorem oneCallComputesTheRomixBlock : Obligations.OneCallComputesTheRomixBlock := by
  intro s b n fuel hp hcost hfuel
  obtain ⟨ws, hcall⟩ := takeTurns_call hp n b
  obtain ⟨u, hwait, hstatus, hu⟩ :=
    hostWait_romix (s := { s with ncost := n, x := decodeBytes b }) hp hcost hfuel
  have hidle : u.phase = .idle := hu ▸ hp
  have hx : u.x = roMix s.cfg.idxWord (decodeBytes b) n := by rw [hu]
  obtain ⟨_, _, _, hwords, hbytes⟩ := blockTransfersLoadAndStoreX u hidle
  rw [hx] at hwords hbytes
  exact ⟨ws, _, u, _, hcall, hwait, hstatus, hwords, hbytes, by rw [hu], by rw [hu]⟩

/-! ## Reset -/

/-- A reset unit is IDLE with every flag clear, so `STATUS` is 0 (R32, R210). -/
theorem statusWord_applyReset (s : State) : s.applyReset.statusWord = 0 := by
  rw [State.statusWord, State.busy, State.applyReset_phase, State.applyReset_done, State.applyReset_err,
    State.applyReset_hosterr]
  rfl

/-- Settles O46: the reset's step leaves the state of R210, whose registers and flags are read off one by one. -/
theorem resetClearsRegistersAndFlags : Obligations.ResetClearsRegistersAndFlags := by
  intro s rest hs
  have hx (k : Fin 32) : (Vector.replicate 32 (0 : Word))[k.val] = 0 := Vector.getElem_replicate _
  exact ⟨_, step_reset hs, hx, rfl, rfl, rfl, rfl, rfl, rfl, rfl, rfl, statusWord_applyReset _, rfl, rfl⟩

/-- Settles O47: no byte of the empty memory has a value, so every block of the space is unwritten from its first byte. -/
theorem resetLeavesNoScratchValue : Obligations.ResetLeavesNoScratchValue := by
  intro s rest hs
  exact ⟨_, step_reset hs, fun i hi => scratchRead_of_unwritten (n := 0) hi rfl⟩

end Sys2Proof.Machine
